-- ==== Sys2Proof/Word.lean ====
section
/-! DEFINITION. The word, byte and register-field types of the core (00_scope.md R7, R8; 30_encoding.md R65). -/

namespace Sys2Proof

/-- A 16-bit unsigned value: the unit of every register, memory cell, address and instruction (R8, R13).
Its `+` is addition modulo 2^16. -/
abbrev Word := BitVec 16

/-- A byte: a keystroke or an output character (R11). -/
abbrev Byte := BitVec 8

/-- A 3-bit register field: the value n names R[n] (R10, R65). -/
abbrev RegField := BitVec 3

end Sys2Proof
end

