-- ==== Sys2Proof/Syntax.lean ====
section
/-! DEFINITION. The instructions: one constructor per row of spec/opcode_table.json, and the 16 opcode values of
30_encoding.md R66. An instruction holds its operand fields as encoded; ignored bits (R63) are no part of it. -/

namespace Sys2Proof

/-- The 16 values of instr[15:12], a closed enumeration (R66, R79). -/
inductive Opcode where
  | br | add | ld | st | jsr | and | ldr | str
  | rti | not | ldi | sti | jmp | reserved | lea | trap
  deriving DecidableEq, Repr

/-- One constructor per row of spec/opcode_table.json. -/
inductive Instr where
  /-- BR (R100): condition bits n, z, p and PCoffset9. -/
  | br (n z p : Bool) (off9 : BitVec 9)
  /-- ADD, register mode (R120). -/
  | addReg (dr sr1 sr2 : RegField)
  /-- ADD, immediate mode (R121). -/
  | addImm (dr sr1 : RegField) (imm5 : BitVec 5)
  /-- LD (R140). -/
  | ld (dr : RegField) (off9 : BitVec 9)
  /-- ST (R141). -/
  | st (sr : RegField) (off9 : BitVec 9)
  /-- JSR (R101). -/
  | jsr (off11 : BitVec 11)
  /-- JSRR (R102). -/
  | jsrr (baseR : RegField)
  /-- AND, register mode (R122). -/
  | andReg (dr sr1 sr2 : RegField)
  /-- AND, immediate mode (R123). -/
  | andImm (dr sr1 : RegField) (imm5 : BitVec 5)
  /-- LDR (R142). -/
  | ldr (dr baseR : RegField) (off6 : BitVec 6)
  /-- STR (R143). -/
  | str (sr baseR : RegField) (off6 : BitVec 6)
  /-- RTI, opcode 8, illegal (R200). -/
  | rti
  /-- NOT (R124). -/
  | not (dr sr : RegField)
  /-- LDI (R144). -/
  | ldi (dr : RegField) (off9 : BitVec 9)
  /-- STI (R145). -/
  | sti (sr : RegField) (off9 : BitVec 9)
  /-- JMP, and RET when BaseR is 7 (R103). -/
  | jmp (baseR : RegField)
  /-- The reserved opcode 13, illegal (R201). -/
  | reserved
  /-- LEA (R146). -/
  | lea (dr : RegField) (off9 : BitVec 9)
  /-- TRAP (R170). The decoder gives the six service vectors their own constructors below, so a decoded `trap` has
  a vector that selects no service (log 27). -/
  | trap (vect8 : BitVec 8)
  /-- TRAP x20 (R172). -/
  | getc
  /-- TRAP x21 (R173). -/
  | out
  /-- TRAP x22 (R174). -/
  | puts
  /-- TRAP x23 (R175), mnemonic IN. -/
  | inKey
  /-- TRAP x24 (R176). -/
  | putsp
  /-- TRAP x25 (R177). -/
  | halt
  deriving DecidableEq, Repr

/-- The opcode each instruction is encoded with (R66). -/
def Instr.opcode : Instr → Opcode
  | .br .. => .br
  | .addReg .. => .add
  | .addImm .. => .add
  | .ld .. => .ld
  | .st .. => .st
  | .jsr .. => .jsr
  | .jsrr .. => .jsr
  | .andReg .. => .and
  | .andImm .. => .and
  | .ldr .. => .ldr
  | .str .. => .str
  | .rti => .rti
  | .not .. => .not
  | .ldi .. => .ldi
  | .sti .. => .sti
  | .jmp .. => .jmp
  | .reserved => .reserved
  | .lea .. => .lea
  | .trap .. => .trap
  | .getc => .trap
  | .out => .trap
  | .puts => .trap
  | .inKey => .trap
  | .putsp => .trap
  | .halt => .trap

end Sys2Proof
end

