-- ==== Sys2Proof/WellFormed.lean ====
section
/-! DEFINITION. Which instruction terms are the canonical form of some word. Every operand field has its encoded width in
its type, so the one check left is on TRAP's vector. -/

namespace Sys2Proof

/-- The six vectors of the trap-service table (43_trap.md R171). -/
def isServiceVector (v : BitVec 8) : Bool := 0x20#8 ≤ v && v ≤ 0x25#8

/-- An instruction in the form the decoder gives: a `trap` whose vector selects a service is written with the
service's own constructor instead (log 27). -/
def Instr.wellFormed : Instr → Bool
  | .trap v => !isServiceVector v
  | .br .. | .addReg .. | .addImm .. | .ld .. | .st .. | .jsr .. | .jsrr .. | .andReg .. | .andImm .. | .ldr ..
  | .str .. | .rti | .not .. | .ldi .. | .sti .. | .jmp .. | .reserved | .lea .. | .getc | .out | .puts | .inKey
  | .putsp | .halt => true

end Sys2Proof
end

