-- ==== Sys2Proof/Decode.lean ====
section
/-! DEFINITION. The decoder, total on every 16-bit word (30_encoding.md R60 to R68, R79), and the encoder, both written
from the format table of R62. Field positions and opcode numbers are the spec's decision D27, the order of the BR condition
bits its decision D28 (log 17). -/

namespace Sys2Proof

/-- The number of an opcode value (R66). -/
def Opcode.bits : Opcode → BitVec 4
  | .br => 0#4
  | .add => 1#4
  | .ld => 2#4
  | .st => 3#4
  | .jsr => 4#4
  | .and => 5#4
  | .ldr => 6#4
  | .str => 7#4
  | .rti => 8#4
  | .not => 9#4
  | .ldi => 10#4
  | .sti => 11#4
  | .jmp => 12#4
  | .reserved => 13#4
  | .lea => 14#4
  | .trap => 15#4

/-- The opcode a 4-bit value selects (R61, R66). Every value selects one; 15 is the last line. -/
def Opcode.ofBits (b : BitVec 4) : Opcode :=
  match b.toNat with
  | 0 => .br
  | 1 => .add
  | 2 => .ld
  | 3 => .st
  | 4 => .jsr
  | 5 => .and
  | 6 => .ldr
  | 7 => .str
  | 8 => .rti
  | 9 => .not
  | 10 => .ldi
  | 11 => .sti
  | 12 => .jmp
  | 13 => .reserved
  | 14 => .lea
  | _ => .trap

/-- `v[lo+len-1 : lo]` (R7). -/
def field (lo len : Nat) (w : Word) : BitVec len := w.extractLsb' lo len

/-- `instr[15:12]` (R61). -/
def opField (w : Word) : BitVec 4 := field 12 4 w

/-- DR, or the stored register SR: bits 11:9 (R62). -/
def drField (w : Word) : RegField := field 9 3 w

/-- SR1, SR of NOT, or BaseR: bits 8:6 (R62). -/
def baseField (w : Word) : RegField := field 6 3 w

/-- SR2: bits 2:0 (R62). -/
def sr2Field (w : Word) : RegField := field 0 3 w

/-- imm5: bits 4:0 (R64). -/
def imm5Field (w : Word) : BitVec 5 := field 0 5 w

/-- offset6: bits 5:0 (R64). -/
def off6Field (w : Word) : BitVec 6 := field 0 6 w

/-- PCoffset9: bits 8:0 (R64). -/
def off9Field (w : Word) : BitVec 9 := field 0 9 w

/-- PCoffset11: bits 10:0 (R64). -/
def off11Field (w : Word) : BitVec 11 := field 0 11 w

/-- trapvect8: bits 7:0 (R64). -/
def vectField (w : Word) : BitVec 8 := field 0 8 w

/-- The row of the trap table a vector selects (R170, R171, R178). -/
def decodeTrap (v : BitVec 8) : Instr :=
  if v = 0x20#8 then .getc
  else if v = 0x21#8 then .out
  else if v = 0x22#8 then .puts
  else if v = 0x23#8 then .inKey
  else if v = 0x24#8 then .putsp
  else if v = 0x25#8 then .halt
  else .trap v

/-- The instruction a word stands for (R62, R66). Total: no word is undecodable (R67). -/
def decode (w : Word) : Instr :=
  match Opcode.ofBits (opField w) with
  | .br => .br w[11] w[10] w[9] (off9Field w)
  | .add =>
    if w[5] then .addImm (drField w) (baseField w) (imm5Field w)
    else .addReg (drField w) (baseField w) (sr2Field w)
  | .ld => .ld (drField w) (off9Field w)
  | .st => .st (drField w) (off9Field w)
  | .jsr => if w[11] then .jsr (off11Field w) else .jsrr (baseField w)
  | .and =>
    if w[5] then .andImm (drField w) (baseField w) (imm5Field w)
    else .andReg (drField w) (baseField w) (sr2Field w)
  | .ldr => .ldr (drField w) (baseField w) (off6Field w)
  | .str => .str (drField w) (baseField w) (off6Field w)
  | .rti => .rti
  | .not => .not (drField w) (baseField w)
  | .ldi => .ldi (drField w) (off9Field w)
  | .sti => .sti (drField w) (off9Field w)
  | .jmp => .jmp (baseField w)
  | .reserved => .reserved
  | .lea => .lea (drField w) (off9Field w)
  | .trap => decodeTrap (vectField w)

/-- A field put at bits `[lo+n-1 : lo]`, every other bit 0 (R7). -/
def place (lo : Nat) (v : BitVec n) : Word := v.setWidth 16 <<< lo

/-- The word of an instruction, each field at its place in R62, with 0 in every ignored bit (R71). -/
def encode : Instr → Word
  | .br n z p off9 =>
    place 12 Opcode.br.bits ||| place 11 (BitVec.ofBool n) ||| place 10 (BitVec.ofBool z) |||
      place 9 (BitVec.ofBool p) ||| place 0 off9
  | .addReg dr sr1 sr2 => place 12 Opcode.add.bits ||| place 9 dr ||| place 6 sr1 ||| place 5 0#1 ||| place 0 sr2
  | .addImm dr sr1 imm5 => place 12 Opcode.add.bits ||| place 9 dr ||| place 6 sr1 ||| place 5 1#1 ||| place 0 imm5
  | .ld dr off9 => place 12 Opcode.ld.bits ||| place 9 dr ||| place 0 off9
  | .st sr off9 => place 12 Opcode.st.bits ||| place 9 sr ||| place 0 off9
  | .jsr off11 => place 12 Opcode.jsr.bits ||| place 11 1#1 ||| place 0 off11
  | .jsrr baseR => place 12 Opcode.jsr.bits ||| place 11 0#1 ||| place 6 baseR
  | .andReg dr sr1 sr2 => place 12 Opcode.and.bits ||| place 9 dr ||| place 6 sr1 ||| place 5 0#1 ||| place 0 sr2
  | .andImm dr sr1 imm5 => place 12 Opcode.and.bits ||| place 9 dr ||| place 6 sr1 ||| place 5 1#1 ||| place 0 imm5
  | .ldr dr baseR off6 => place 12 Opcode.ldr.bits ||| place 9 dr ||| place 6 baseR ||| place 0 off6
  | .str sr baseR off6 => place 12 Opcode.str.bits ||| place 9 sr ||| place 6 baseR ||| place 0 off6
  | .rti => place 12 Opcode.rti.bits
  | .not dr sr => place 12 Opcode.not.bits ||| place 9 dr ||| place 6 sr
  | .ldi dr off9 => place 12 Opcode.ldi.bits ||| place 9 dr ||| place 0 off9
  | .sti sr off9 => place 12 Opcode.sti.bits ||| place 9 sr ||| place 0 off9
  | .jmp baseR => place 12 Opcode.jmp.bits ||| place 6 baseR
  | .reserved => place 12 Opcode.reserved.bits
  | .lea dr off9 => place 12 Opcode.lea.bits ||| place 9 dr ||| place 0 off9
  | .trap v => place 12 Opcode.trap.bits ||| place 0 v
  | .getc => place 12 Opcode.trap.bits ||| place 0 0x20#8
  | .out => place 12 Opcode.trap.bits ||| place 0 0x21#8
  | .puts => place 12 Opcode.trap.bits ||| place 0 0x22#8
  | .inKey => place 12 Opcode.trap.bits ||| place 0 0x23#8
  | .putsp => place 12 Opcode.trap.bits ||| place 0 0x24#8
  | .halt => place 12 Opcode.trap.bits ||| place 0 0x25#8

/-- The ignored bits of a word (R63): set where the word's bit does not affect decoding. -/
def ignoredBits (w : Word) : Word :=
  match Opcode.ofBits (opField w) with
  | .add => if w[5] then 0x0000#16 else 0x0018#16
  | .and => if w[5] then 0x0000#16 else 0x0018#16
  | .not => 0x003F#16
  | .jsr => if w[11] then 0x0000#16 else 0x063F#16
  | .jmp => 0x0E3F#16
  | .trap => 0x0F00#16
  | .rti => 0x0FFF#16
  | .reserved => 0x0FFF#16
  | .br | .ld | .st | .ldr | .str | .ldi | .sti | .lea => 0x0000#16

/-- The instruction word made of the low `nbits` bits of `w`, every bit above them 0. -/
def tableWord (nbits w : Nat) : Word := BitVec.ofNat 16 (w % 2 ^ nbits)

/-- The instruction the decoder reads from a table word. Every word decodes (R67), so never none. -/
def decodeTableWord (nbits w : Nat) : Option Instr := some (decode (tableWord nbits w))

end Sys2Proof
end

