-- ==== Sys2Proof/Config.lean ====
section
/-! DEFINITION. The parameters of 00_scope.md R6 whose values the spec decides. The OPEN ones (HALT_NOTICE, IN_PROMPT and
the non-zero exit statuses) are free values and stand in State as plain data (`Params` in Machine/State.lean, log 13). -/

namespace Sys2Proof.Config

/-- PC_START: the address of the first fetch, whatever the image's origin (R34, R242; the spec's decision D1, log 3). -/
def pcStart : Word := 0x3000#16

/-- GPR_RESET: what each of R0 to R7 holds after reset (R33; the spec's decision D3, log 2). -/
def gprReset : Word := 0x0000#16

/-- What a memory word that nothing has written holds: memory is zero-initialised at reset (R36, R58). -/
def memReset : Word := 0x0000#16

/-- KBSR_ADDR: the keyboard status device register (R42, R222; the spec's decision D4, log 4). -/
def kbsrAddr : Word := 0xFE00#16

/-- KBDR_ADDR: the keyboard data device register (R42, R222; the spec's decision D4, log 4). -/
def kbdrAddr : Word := 0xFE02#16

/-- EXIT_HALT: the process exit status of a successful halt (R6, R225). -/
def exitHalt : Nat := 0

end Sys2Proof.Config
end

