-- ==== Sys2Proof/Machine/State.lean ====
section
/-! DEFINITION. The state of the machine (10_state.md R20 to R37), as plain data, and its value after reset (R240). -/

namespace Sys2Proof.Machine

/-- The condition flags: exactly one of three, never a union (R26). -/
inductive Cond where
  /-- POSITIVE -/
  | p
  /-- ZERO -/
  | z
  /-- NEGATIVE -/
  | n
  deriving DecidableEq, Repr

/-- COND after reset (R35; the spec's decision D2, log 3). -/
def condReset : Cond := .z

/-- What a fatal fault of the core records beside its address (R210). -/
inductive FaultCause where
  /-- Opcode 8 or 13 was dispatched; `op` is that opcode value (R211). -/
  | illegalOpcode (op : BitVec 4)
  /-- TRAP's vector selects no service; `vect8` is that vector (R212). -/
  | illegalTrap (vect8 : BitVec 8)
  deriving DecidableEq, Repr

/-- The execution status (R30). -/
inductive Status where
  /-- The loop fetches and executes the next instruction. -/
  | running
  /-- Entered by TRAP HALT; terminal. -/
  | halted
  /-- Entered by IllegalOpcode or IllegalTrap; `addr` is the fetch address; terminal. -/
  | faulted (cause : FaultCause) (addr : Word)
  /-- Entered when the host cancels a keystroke read; `addr` is the fetch address; the host may resume. -/
  | aborted (addr : Word)
  deriving DecidableEq, Repr

/-- One item of the host's script: what the terminal does next as the core asks for keystrokes (R224, D23; log 6). -/
inductive KeyEvent where
  /-- A keystroke is there to be read. -/
  | key (b : Byte)
  /-- No keystroke is there at one poll; a read waits past it. -/
  | quiet
  /-- The host cancels the next wait (R213). -/
  | cancel
  deriving DecidableEq, Repr

/-- What the host does with a read once its script is used up (log 7). -/
inductive ScriptEnd where
  /-- The input stream has ended: every further read is cancelled (R213). -/
  | closed
  /-- The host neither supplies a key nor cancels: the core is held (R45). -/
  | silent
  /-- The host supplies the byte `k` again and again, without end, so that a poll always finds a key (R224). -/
  | typing (k : Byte)
  deriving DecidableEq, Repr

/-- The terminal, as far as the core can reach it (R11, R32 (c), R224). Host state, outside the core. -/
structure Terminal where
  /-- The host's answers to come, next one first. -/
  script : List KeyEvent
  /-- What happens past the end of `script`. -/
  atEnd : ScriptEnd
  /-- The output stream, oldest byte first. -/
  output : List Byte
  /-- How many more times the host resumes an aborted session before it ends it (R78, R213; log 9). -/
  resumes : Nat
  deriving DecidableEq, Repr

/-- The parameters the spec leaves OPEN (R6, D18, D19): free values, held as plain data so that a statement about every
state is one about every value of theirs (log 13). No instruction writes them. -/
structure Params where
  /-- HALT_NOTICE, written by HALT (R177). -/
  haltNotice : List Byte
  /-- IN_PROMPT, written by IN before it reads (R175). -/
  inPrompt : List Byte
  /-- EXIT_LOADFAULT (R225). -/
  exitLoadFault : Nat
  /-- EXIT_ILLEGAL_OPCODE (R225). -/
  exitIllegalOpcode : Nat
  /-- EXIT_ILLEGAL_TRAP (R225). -/
  exitIllegalTrap : Nat
  deriving DecidableEq, Repr

/-- The defaults of R6 for the two texts, "HALT\n" and "Enter a character: ", and three distinct non-zero statuses
(DESIGN CHOICE, log 13). -/
def Params.default : Params where
  haltNotice := [0x48#8, 0x41#8, 0x4C#8, 0x54#8, 0x0A#8]
  inPrompt := [0x45#8, 0x6E#8, 0x74#8, 0x65#8, 0x72#8, 0x20#8, 0x61#8, 0x20#8, 0x63#8, 0x68#8, 0x61#8, 0x72#8,
    0x61#8, 0x63#8, 0x74#8, 0x65#8, 0x72#8, 0x3A#8, 0x20#8]
  exitLoadFault := 1
  exitIllegalOpcode := 2
  exitIllegalTrap := 3

/-- The memory array (R31): the words that differ from the reset contents, as pairs (word address, word) with strictly
rising addresses (`Memory.wf` in Machine/Ops.lean). The unit of the address space is the 16-bit word (R40, R48; log 1). -/
abbrev Memory := List (Nat × Word)

/-- The machine: the tuple of R20, the terminal the core reaches, and the OPEN parameters. -/
structure State where
  /-- R0 to R7 (R21). -/
  regs : Vector Word 8
  /-- The program counter (R24). -/
  pc : Word
  /-- The condition flags (R26). -/
  cond : Cond
  /-- MEM (R31). -/
  mem : Memory
  /-- The execution status (R30). -/
  status : Status
  /-- The terminal (R32 (c), R224). -/
  term : Terminal
  /-- The OPEN parameters (R6). -/
  params : Params
  deriving DecidableEq, Repr

/-- Why the machine takes no step. The core's own faults IllegalOpcode, IllegalTrap and InputAborted are NOT here: they are
next states whose `status` says so (R211 to R213). -/
inductive Fault where
  /-- A keystroke read found the host silent: the core is held and takes no step (R45, I3 "stuck"). Raised by the keystroke
  reads of GETC, IN, a fetch or load from KBDR_ADDR, and a string walk that comes to it. The bytes written before the wait
  stand in no state (DESIGN CHOICE, log 30). Safe: the machine stops where a real host could still answer. -/
  | heldForKey
  /-- A PUTS walk never reaches a zero word: it writes forever, and its step never completes (R174, R226, I15). Raised by
  PUTS, before a host that supplies keys without end; the fuel decides it exactly (log 15). Safe: no step is taken. -/
  | walkUnending
  /-- `step` from status Halted: the loop takes no step (R78). Safe. -/
  | halted
  /-- `step` from status Faulted: the loop takes no step (R78). Safe. -/
  | faulted (cause : FaultCause) (addr : Word)
  /-- `step` from status Aborted when the host does not resume: it has ended the session (R213, R226). Safe. -/
  | sessionEnded (addr : Word)
  deriving DecidableEq, Repr

/-- Why an instruction has no meaning. -/
inductive Refusal where
  /-- The instruction has no meaning in the model yet; raised by an arm of `exec` alone (there is none). Safe. -/
  | notModelled (mnemonic : String)
  deriving DecidableEq, Repr

/-- What an instruction's meaning answers. -/
abbrev Result := Host.Outcome State Fault Refusal

/-- The terminal a session starts with: no keystroke, the input stream ended, nothing written, no resumption
(DESIGN CHOICE, log 6, 7, 9, 10). -/
def Terminal.reset : Terminal where
  script := []
  atEnd := .closed
  output := []
  resumes := 0

/-- The machine right after reset with nothing loaded (R240). -/
def State.reset : State where
  regs := Vector.replicate 8 Config.gprReset
  pc := Config.pcStart
  cond := condReset
  mem := []
  status := .running
  term := Terminal.reset
  params := Params.default

end Sys2Proof.Machine
end

