-- ==== Sys2Proof/Machine/Operands.lean ====
section
/-! DEFINITION. Operand forms: sign and zero extension (00_scope.md R9), the bytes of a word (R48), registers by field
(30_encoding.md R65), and the effective addresses of 42_load_store.md R147. -/

namespace Sys2Proof.Machine

/-- `sext_N(v)`: the 16-bit word with the low N bits of `v` and the sign bit above them (R9). -/
def sext (v : BitVec n) : Word := v.signExtend 16

/-- `zext_16(v)` of a byte (R9). -/
def zext (b : Byte) : Word := b.setWidth 16

/-- `w[7:0]` (R48). -/
def lowByte (w : Word) : Byte := w.extractLsb' 0 8

/-- `w[15:8]` (R176). -/
def highByte (w : Word) : Byte := w.extractLsb' 8 8

/-- The word with high byte `hi` and low byte `lo`. -/
def wordOf (hi lo : Byte) : Word := hi ++ lo

/-- R[n] (R10, R65). -/
def State.reg (s : State) (r : RegField) : Word := s.regs[r.toNat]'(r.isLt)

/-- R[n] <- v (R10, R65). -/
def State.setReg (s : State) (r : RegField) (v : Word) : State :=
  { s with regs := s.regs.set r.toNat v r.isLt }

/-- The fetch address of the instruction in execution, whose incremented PC stands in the state (R75, R76). -/
def State.fetchAddr (s : State) : Word := s.pc - 1#16

/-- PC + sext_9(PCoffset9): PC-relative (R147). -/
def State.pcRel9 (s : State) (off9 : BitVec 9) : Word := s.pc + sext off9

/-- PC + sext_11(PCoffset11): JSR (R101). -/
def State.pcRel11 (s : State) (off11 : BitVec 11) : Word := s.pc + sext off11

/-- R[BaseR] + sext_6(offset6): base + offset (R147). -/
def State.baseRel6 (s : State) (baseR : RegField) (off6 : BitVec 6) : Word := s.reg baseR + sext off6

/-- The link register R7 (R21, R104). -/
def linkReg : RegField := 7#3

/-- R0, the operand and result register of the trap services (R21). -/
def serviceReg : RegField := 0#3

end Sys2Proof.Machine
end

