-- ==== Sys2Proof/Machine/Flags.lean ====
section
/-! DEFINITION. The condition flags: their encoding (10_state.md R26, R29), the update function (R27), BR's test
(40_control.md R100), and the register-file slots (R23). -/

namespace Sys2Proof.Machine

/-- COND as the word of slot 9: P bit 0, Z bit 1, N bit 2 (R26, R29; the spec's decision D28, log 17). -/
def Cond.toWord : Cond → Word
  | .p => 0x0001#16
  | .z => 0x0002#16
  | .n => 0x0004#16

/-- The flag of a value written to a general register (R27). -/
def condOf (v : Word) : Cond :=
  if v = 0x0000#16 then .z
  else if v[15] then .n
  else .p

/-- `setcc(v)` (R27). -/
def State.setcc (s : State) (v : Word) : State := { s with cond := condOf v }

/-- R[DR] <- v; setcc(v): how every instruction with a result register ends (R27, R28). -/
def State.writeResult (s : State) (dr : RegField) (v : Word) : State := (s.setReg dr v).setcc v

/-- Whether a branch with condition bits n, z, p is taken: the requested bits meet the current flag (R100). -/
def branchTaken (n z p : Bool) (c : Cond) : Bool :=
  (n && c == .n) || (z && c == .z) || (p && c == .p)

/-- The register file of 10 slots: R0 to R7, then PC, then COND (R23). -/
def State.slot (s : State) (k : Fin 10) : Word :=
  if h : k.val < 8 then s.regs[k.val]
  else if k.val = 8 then s.pc
  else s.cond.toWord

end Sys2Proof.Machine
end

