-- ==== Sys2Proof/Machine/Ops.lean ====
section
/-! DEFINITION. The shared operations: memory (20_memory.md), the terminal (60_exceptions.md R224), the bridged accesses
(R43 to R46), taking a fault or an aborted input and resuming (R210 to R213), the trap entry (43_trap.md R170), the string
walk of PUTS and PUTSP (R174, R176), and the fetch (30_encoding.md R75). -/

namespace Sys2Proof.Machine

/-! ### Memory -/

/-- The word at an address; an unlisted address holds its reset contents (R31, R36). -/
def Memory.read : Memory → Nat → Word
  | [], _ => Config.memReset
  | (k, w) :: m, a => if k = a then w else Memory.read m a

/-- Put a cell in front of the later ones, or leave it out where it holds the reset contents. -/
def Memory.cons (a : Nat) (v : Word) (m : Memory) : Memory :=
  if v = Config.memReset then m else (a, v) :: m

/-- MEM[a] <- v, kept in canonical form. -/
def Memory.write : Memory → Nat → Word → Memory
  | [], a, v => Memory.cons a v []
  | (k, w) :: m, a, v =>
    if a < k then Memory.cons a v ((k, w) :: m)
    else if a = k then Memory.cons a v m
    else (k, w) :: Memory.write m a v

/-- Every listed address is at least `lo` and inside the 65536 words, addresses rise strictly, and no listed word is the
reset contents. -/
def Memory.wfFrom : Nat → Memory → Bool
  | _, [] => true
  | lo, (k, w) :: m => decide (lo ≤ k) && decide (k < 65536) && decide (w ≠ Config.memReset) && Memory.wfFrom (k + 1) m

/-- The canonical form of a memory: equal memories are equal lists. -/
def Memory.wf (m : Memory) : Bool := Memory.wfFrom 0 m

/-- A device register's address (R42): never ordinary storage. -/
def isDevice (a : Word) : Bool := a == Config.kbsrAddr || a == Config.kbdrAddr

/-! ### The terminal -/

/-- `Out(b)`: append a byte to the output stream (R11). -/
def Terminal.out (t : Terminal) (b : Byte) : Terminal := { t with output := t.output ++ [b] }

/-- `Out` of each byte in order. -/
def Terminal.outAll (t : Terminal) (bs : List Byte) : Terminal := { t with output := t.output ++ bs }

/-- Whether the host has a key at hand once its script is used up. -/
def ScriptEnd.hasKey : ScriptEnd → Bool
  | .closed => false
  | .silent => false
  | .typing _ => true

/-- `KeyAvail()`: whether a keystroke can be read now; it consumes none. A `quiet` item is the answer to one poll (R44). -/
def Terminal.keyAvail (t : Terminal) : Bool × Terminal :=
  match t.script with
  | .key _ :: _ => (true, t)
  | .quiet :: rest => (false, { t with script := rest })
  | .cancel :: _ => (false, t)
  | [] => (t.atEnd.hasKey, t)

/-- How the host answers `ReadKey()`: a byte, a cancellation, or never; with the script it leaves. -/
inductive KeyAnswer where
  | key (b : Byte) (rest : List KeyEvent)
  | cancelled (rest : List KeyEvent)
  | never
  deriving DecidableEq, Repr

/-- The answer a script gives to a read: it waits past `quiet` items; the end of a closed stream is a cancellation (R213). -/
def nextKey (atEnd : ScriptEnd) : List KeyEvent → KeyAnswer
  | .key b :: rest => .key b rest
  | .quiet :: rest => nextKey atEnd rest
  | .cancel :: rest => .cancelled rest
  | [] =>
    match atEnd with
    | .closed => .cancelled []
    | .silent => .never
    | .typing k => .key k []

/-- `ReadKey()` (R11, R224). -/
def Terminal.readKey (t : Terminal) : KeyAnswer := nextKey t.atEnd t.script

/-! ### Bridged accesses -/

/-- What a read that may have to wait for the host gives: a value and the state after it, a cancellation with the terminal
it leaves, or no answer. -/
inductive Read (α : Type) where
  | value (v : α) (s : State)
  | cancelled (t : Terminal)
  | held
  deriving Repr

/-- `ReadKey()` in a state (R11). -/
def State.readKey (s : State) : Read Byte :=
  match s.term.readKey with
  | .key b rest => .value b { s with term := { s.term with script := rest } }
  | .cancelled rest => .cancelled { s.term with script := rest }
  | .never => .held

/-- `KbsrRead()`: bit 15 is READY, bits 14:0 are 0; no keystroke is consumed (R44, R222). -/
def State.kbsrRead (s : State) : Read Word :=
  .value (if s.term.keyAvail.1 then 0x8000#16 else 0x0000#16) { s with term := s.term.keyAvail.2 }

/-- The keyboard data backing cell takes the key as its low byte (R45, R32 (b); log 14). -/
def State.storeBackingCell (s : State) (b : Byte) : State :=
  let a := Config.kbdrAddr.toNat
  { s with mem := s.mem.write a (wordOf (highByte (s.mem.read a)) b) }

/-- `KbdrRead()`: the next keystroke, zero-extended (R45). -/
def State.kbdrRead (s : State) : Read Word :=
  match s.readKey with
  | .value b t => .value (zext b) (t.storeBackingCell b)
  | .cancelled t => .cancelled t
  | .held => .held

/-- `MemRead(a, 1)`: every read of the core, fetches and string walks included (R43; D8, D9). -/
def State.memRead (s : State) (a : Word) : Read Word :=
  if a = Config.kbsrAddr then s.kbsrRead
  else if a = Config.kbdrAddr then s.kbdrRead
  else .value (s.mem.read a.toNat) s

/-- `MemWrite(a, 1, v)`: a device address ignores it (R46). -/
def State.memWrite (s : State) (a v : Word) : State :=
  if isDevice a then s else { s with mem := s.mem.write a.toNat v }

/-! ### Faults, aborted input and resumption -/

/-- `raise F(info)` for IllegalOpcode and IllegalTrap: PC stays incremented and the status records the fetch address
(R211, R212, R219). -/
def State.raise (s : State) (cause : FaultCause) : State := { s with status := .faulted cause s.fetchAddr }

/-- InputAborted: the instruction that entered with `s` has no effect on the core; PC is its fetch address again, and only
what the terminal has seen remains (R213, R77). -/
def State.abort (s : State) (t : Terminal) : State :=
  { s with pc := s.fetchAddr, status := .aborted s.fetchAddr, term := t }

/-- Go on with the value of a read, or end the instruction that entered with `s` as the host's answer requires
(R45, R213). DESIGN CHOICE: what an instruction has written or read before a wait without end stands in no state, since the
held core takes no step (log 30). -/
def andThen (s : State) (r : Read α) (k : α → State → Result) : Result :=
  match r with
  | .value v t => k v t
  | .cancelled t => .next (s.abort t)
  | .held => .fault .heldForKey

/-- From Aborted: the host resumes the session, and the next step fetches again from the unchanged PC, or it has ended the
session (R78, R213; log 9). -/
def State.resume (s : State) (addr : Word) : Result :=
  match s.term.resumes with
  | 0 => .fault (.sessionEnded addr)
  | n + 1 => .next { s with status := .running, term := { s.term with resumes := n } }

/-! ### Trap entry and services -/

/-- R7 <- PC: the link write of JSR, JSRR and TRAP; it does not touch COND (R28, R218). -/
def State.link (s : State) : State := s.setReg linkReg s.pc

/-- The words of a string read from `p` on, through the bridge, each written as `emit` says, until `emit` gives nothing
(R174, R176). The address wraps (D9). -/
def walk (emit : Word → Option (List Byte)) : Nat → Word → State → Option (Read Unit)
  | 0, _, _ => none
  | fuel + 1, p, s =>
    match s.memRead p with
    | .value w t =>
      match emit w with
      | none => some (.value () t)
      | some bs => walk emit fuel (p + 1#16) { t with term := t.term.outAll bs }
    | .cancelled t => some (.cancelled t)
    | .held => some .held

/-- Enough for every walk that ends: each round of the 65536 addresses takes a keystroke out of the script or ends the walk,
and once the script is used up every later round is like the one before (log 15). -/
def State.walkFuel (s : State) : Nat := 65536 * (s.term.script.length + 2)

/-- PUTS: a zero word ends the string; any other word is one character, its low byte (R174). -/
def putsEmit (w : Word) : Option (List Byte) :=
  if w = 0x0000#16 then none else some [lowByte w]

/-- PUTSP: a zero low byte ends the string; the low byte comes first, then the high byte unless zero (R176). -/
def putspEmit (w : Word) : Option (List Byte) :=
  if lowByte w = 0x00#8 then none
  else if highByte w = 0x00#8 then some [lowByte w]
  else some [lowByte w, highByte w]

/-- The GETC service in `s`, inside the TRAP that entered with `entry` (R172). -/
def serviceGetc (entry s : State) : Result :=
  andThen entry s.readKey fun b t => .next (t.writeResult serviceReg (zext b))

/-- The OUT service (R173). -/
def serviceOut (_entry s : State) : Result :=
  .next { s with term := s.term.out (lowByte (s.reg serviceReg)) }

/-- A string service (R174, R176). A walk that never ends is no step: its service does not complete (R226, I15). -/
def serviceString (emit : Word → Option (List Byte)) (entry s : State) : Result :=
  match walk emit s.walkFuel (s.reg serviceReg) s with
  | some r => andThen entry r fun _ t => .next t
  | none => .fault .walkUnending

/-- The IN service: prompt, read, echo, R0, flags, in this order (R175). -/
def serviceIn (entry s : State) : Result :=
  let s1 := { s with term := s.term.outAll s.params.inPrompt }
  andThen entry s1.readKey fun b t => .next ({ t with term := t.term.out b }.writeResult serviceReg (zext b))

/-- The HALT service: the notice, then status Halted (R177). -/
def serviceHalt (_entry s : State) : Result :=
  .next { s with term := s.term.outAll s.params.haltNotice, status := .halted }

/-- A vector outside the table: IllegalTrap, after the link write (R178, R212). -/
def serviceIllegal (v : BitVec 8) (_entry s : State) : Result := .next (s.raise (.illegalTrap v))

/-- Trap entry: R7 <- PC, then the service (R170, R218). PC does not move. -/
def trapTo (service : State → State → Result) (s : State) : Result := service s s.link

/-- The service a vector selects (R170, R171). -/
def serviceOf (v : BitVec 8) : State → State → Result :=
  if v = 0x20#8 then serviceGetc
  else if v = 0x21#8 then serviceOut
  else if v = 0x22#8 then serviceString putsEmit
  else if v = 0x23#8 then serviceIn
  else if v = 0x24#8 then serviceString putspEmit
  else if v = 0x25#8 then serviceHalt
  else serviceIllegal v

/-! ### Fetch -/

/-- PC <- PC + 1 (R75, R76). -/
def State.advance (s : State) : State := { s with pc := s.pc + 1#16 }

/-- Fetch the word at PC through the bridge, increment PC, and go on with both (R75). A cancelled fetch leaves the state
before it, Aborted at the fetch address (R213). -/
def State.fetchThen (s : State) (k : Word → State → Result) : Result :=
  andThen s.advance (s.memRead s.pc) fun w t => k w t.advance

/-! ### Where an instruction is placed -/

/-- The state with `w` stored where the next step fetches. A device address holds no program, so a PC there goes to
PC_START, and a machine that is not running is set running (log 28). -/
def State.placeWord (s : State) (w : Word) : State :=
  let a := if isDevice s.pc then Config.pcStart else s.pc
  { s with pc := a, status := .running, mem := s.mem.write a.toNat w }

end Sys2Proof.Machine
end

