-- ==== Sys2Proof/Machine/Control.lean ====
section
/-! DEFINITION. BR, JSR, JSRR, JMP (40_control.md R100 to R105). PC is the incremented PC. -/

namespace Sys2Proof.Machine

/-- BR (R100). With n = z = p = 0 it only advances PC (R68 (d)). -/
def execBr (n z p : Bool) (off9 : BitVec 9) (s : State) : Result :=
  if branchTaken n z p s.cond then .next { s with pc := s.pcRel9 off9 } else .next s

/-- JSR: the link, then PC-relative (R101). -/
def execJsr (off11 : BitVec 11) (s : State) : Result :=
  let t := s.link
  .next { t with pc := t.pcRel11 off11 }

/-- JSRR: the link, then BaseR, read after the R7 write (R102, D17; log 19). -/
def execJsrr (baseR : RegField) (s : State) : Result :=
  let t := s.link
  .next { t with pc := t.reg baseR }

/-- JMP (R103). -/
def execJmp (baseR : RegField) (s : State) : Result :=
  .next { s with pc := s.reg baseR }

end Sys2Proof.Machine
end

