-- ==== Sys2Proof/Machine/LoadStore.lean ====
section
/-! DEFINITION. LD, ST, LDR, STR, LDI, STI, LEA (42_load_store.md R140 to R147). PC is the incremented PC; every access goes
through the bridge, and a cancelled read of KBDR_ADDR ends the instruction with InputAborted. -/

namespace Sys2Proof.Machine

/-- LD (R140). -/
def execLd (dr : RegField) (off9 : BitVec 9) (s : State) : Result :=
  andThen s (s.memRead (s.pcRel9 off9)) fun v t => .next (t.writeResult dr v)

/-- ST (R141). -/
def execSt (sr : RegField) (off9 : BitVec 9) (s : State) : Result :=
  .next (s.memWrite (s.pcRel9 off9) (s.reg sr))

/-- LDR (R142). -/
def execLdr (dr baseR : RegField) (off6 : BitVec 6) (s : State) : Result :=
  andThen s (s.memRead (s.baseRel6 baseR off6)) fun v t => .next (t.writeResult dr v)

/-- STR (R143). -/
def execStr (sr baseR : RegField) (off6 : BitVec 6) (s : State) : Result :=
  .next (s.memWrite (s.baseRel6 baseR off6) (s.reg sr))

/-- LDI: one level of indirection, pointer then data (R144). -/
def execLdi (dr : RegField) (off9 : BitVec 9) (s : State) : Result :=
  andThen s (s.memRead (s.pcRel9 off9)) fun p t =>
    andThen s (t.memRead p) fun v u => .next (u.writeResult dr v)

/-- STI: the pointer read, then the store (R145). -/
def execSti (sr : RegField) (off9 : BitVec 9) (s : State) : Result :=
  andThen s (s.memRead (s.pcRel9 off9)) fun p t => .next (t.memWrite p (t.reg sr))

/-- LEA: an address as a value, no memory access (R146). -/
def execLea (dr : RegField) (off9 : BitVec 9) (s : State) : Result :=
  .next (s.writeResult dr (s.pcRel9 off9))

end Sys2Proof.Machine
end

