-- ==== Sys2Proof/Machine/Operate.lean ====
section
/-! DEFINITION. ADD, AND, NOT (41_operate.md R120 to R125). PC is the incremented PC. -/

namespace Sys2Proof.Machine

/-- ADD, register mode: addition modulo 2^16 (R120). -/
def execAddReg (dr sr1 sr2 : RegField) (s : State) : Result :=
  .next (s.writeResult dr (s.reg sr1 + s.reg sr2))

/-- ADD, immediate mode (R121). -/
def execAddImm (dr sr1 : RegField) (imm5 : BitVec 5) (s : State) : Result :=
  .next (s.writeResult dr (s.reg sr1 + sext imm5))

/-- AND, register mode (R122). -/
def execAndReg (dr sr1 sr2 : RegField) (s : State) : Result :=
  .next (s.writeResult dr (s.reg sr1 &&& s.reg sr2))

/-- AND, immediate mode (R123). -/
def execAndImm (dr sr1 : RegField) (imm5 : BitVec 5) (s : State) : Result :=
  .next (s.writeResult dr (s.reg sr1 &&& sext imm5))

/-- NOT: bitwise complement (R124). -/
def execNot (dr sr : RegField) (s : State) : Result :=
  .next (s.writeResult dr (~~~ s.reg sr))

end Sys2Proof.Machine
end

