-- ==== Sys2Proof/Machine/Reserved.lean ====
section
/-! DEFINITION. The illegal opcodes RTI (8) and reserved (13) (44_reserved.md R200, R201): each raises IllegalOpcode. -/

namespace Sys2Proof.Machine

/-- RTI, opcode 8: raise IllegalOpcode(a, 8) (R200, R211). -/
def execRti (s : State) : Result := .next (s.raise (.illegalOpcode 8#4))

/-- Reserved, opcode 13: raise IllegalOpcode(a, 13) (R201, R211). -/
def execReserved (s : State) : Result := .next (s.raise (.illegalOpcode 13#4))

end Sys2Proof.Machine
end

