-- ==== Sys2Proof/Machine/Trap.lean ====
section
/-! DEFINITION. TRAP and the six trap services (43_trap.md R170 to R179). PC is the incremented PC. -/

namespace Sys2Proof.Machine

/-- TRAP: the link, then the service its vector selects, or IllegalTrap (R170, R178). -/
def execTrap (vect8 : BitVec 8) (s : State) : Result := trapTo (serviceOf vect8) s

/-- GETC, vector 0x20 (R172). -/
def execGetc (s : State) : Result := trapTo serviceGetc s

/-- OUT, vector 0x21 (R173). -/
def execOut (s : State) : Result := trapTo serviceOut s

/-- PUTS, vector 0x22 (R174). -/
def execPuts (s : State) : Result := trapTo (serviceString putsEmit) s

/-- IN, vector 0x23 (R175). -/
def execIn (s : State) : Result := trapTo serviceIn s

/-- PUTSP, vector 0x24 (R176). -/
def execPutsp (s : State) : Result := trapTo (serviceString putspEmit) s

/-- HALT, vector 0x25 (R177). -/
def execHalt (s : State) : Result := trapTo serviceHalt s

end Sys2Proof.Machine
end

