-- ==== Sys2Proof/Machine/Step.lean ====
section
/-! DEFINITION. One step of the execution loop (30_encoding.md R75 to R78). -/

namespace Sys2Proof.Machine

/-- One step: Running fetches, increments PC and dispatches (R75); Halted and Faulted take no step, and Aborted waits for the
host to resume (R78). -/
def step (s : State) : Host.Outcome State Fault Refusal :=
  match s.status with
  | .running => s.fetchThen fun w t => exec (decode w) t
  | .halted => .fault .halted
  | .faulted cause addr => .fault (.faulted cause addr)
  | .aborted addr => s.resume addr

/-- The state with a table word placed where the next step fetches (log 28). -/
def State.withFetchWord (s : State) (nbits w : Nat) : State := s.placeWord (tableWord nbits w)

end Sys2Proof.Machine
end

