-- ==== Sys2Proof/Machine/Load.lean ====
section
/-! DEFINITION. The loader's contract and the start of a session (70_reset_and_hazards.md R240 to R242), and how a run ends
for the process (60_exceptions.md R214, R225). -/

namespace Sys2Proof.Machine

/-- `byte_swap16` (R48, R241). -/
def byteSwap16 (w : Word) : Word := wordOf (lowByte w) (highByte w)

/-- The big-endian words of an image; none where a byte is left over (R241; log 26). -/
def imageWords : List Byte → Option (List Word)
  | [] => some []
  | [_] => none
  | hi :: lo :: rest => (imageWords rest).map (wordOf hi lo :: ·)

/-- `Load(origin, w)`: consecutive words from `a` on, truncated past 0xFFFF, not wrapped (R241). -/
def loadWords : Nat → List Word → Memory → Memory
  | _, [], m => m
  | a, w :: ws, m => if a < 65536 then loadWords (a + 1) ws (m.write a w) else m

/-- How a session starts: with the core running, or with LoadFault before any step (R214, R240). -/
inductive Boot where
  | running (s : State)
  | loadFault
  deriving DecidableEq, Repr

/-- Reset, then the load of an image (R240). `none` is an image that is missing or unreadable (R214). An image of no words
loads nothing. -/
def boot (image : Option (List Byte)) : Boot :=
  match image with
  | none => .loadFault
  | some bytes =>
    match imageWords bytes with
    | none => .loadFault
    | some [] => .running State.reset
    | some (origin :: ws) => .running { State.reset with mem := loadWords origin.toNat ws State.reset.mem }

/-- The code of a fatal fault (R210; D20). -/
def FaultCause.code : FaultCause → Nat
  | .illegalOpcode _ => 1
  | .illegalTrap _ => 2

/-- The code of InputAborted (R210; D20). -/
def inputAbortedCode : Nat := 3

/-- The code of LoadFault (R210; D20). -/
def loadFaultCode : Nat := 4

/-- The process exit status of a state that ends a run; none while it runs, and none for an aborted session, whose status
is the host's own (R210, R225). -/
def State.exitStatus (s : State) : Option Nat :=
  match s.status with
  | .running => none
  | .halted => some Config.exitHalt
  | .faulted (.illegalOpcode _) _ => some s.params.exitIllegalOpcode
  | .faulted (.illegalTrap _) _ => some s.params.exitIllegalTrap
  | .aborted _ => none

/-- The process exit status of a start that failed (R214, R225). -/
def Boot.exitStatus (p : Params) : Boot → Option Nat
  | .running _ => none
  | .loadFault => some p.exitLoadFault

end Sys2Proof.Machine
end

