-- ==== Sys2Proof/Safety.lean ====
section
/-! DEFINITION. The terms statements use: the invariant every step keeps, what the host's script answers, what a bridged read
gives, what a string walk does, and which state each instruction may write, each written from the spec's words and tables
and not from the functions of Machine/. -/

namespace Sys2Proof.Machine

/-! ### The invariant -/

/-- What each status says of the rest of the state: PC = a + 1 after a fatal fault, R7 = PC after a bad vector and after HALT,
PC = a after an abort (R177, R211, R212, R213). -/
def State.StatusAgrees (s : State) : Prop :=
  match s.status with
  | .running => True
  | .halted => s.reg 7#3 = s.pc
  | .faulted (.illegalOpcode op) a => s.pc = a + 1#16 ∧ (op = 8#4 ∨ op = 13#4)
  | .faulted (.illegalTrap v) a => s.pc = a + 1#16 ∧ s.reg 7#3 = s.pc ∧ isServiceVector v = false
  | .aborted a => s.pc = a

/-- The exit statuses are non-zero and distinct (R6, R225). -/
abbrev Params.Wf (p : Params) : Prop :=
  p.exitLoadFault ≠ 0 ∧ p.exitIllegalOpcode ≠ 0 ∧ p.exitIllegalTrap ≠ 0 ∧
  p.exitLoadFault ≠ p.exitIllegalOpcode ∧ p.exitLoadFault ≠ p.exitIllegalTrap ∧
  p.exitIllegalOpcode ≠ p.exitIllegalTrap

/-- The invariant of the machine: memory in canonical form, the status in agreement with the registers, the exit statuses
usable. -/
structure State.Inv (s : State) : Prop where
  memory : s.mem.wf = true
  status : s.StatusAgrees
  params : s.params.Wf

/-! ### What the host answers -/

/-- The next keystroke is `k`, after some polls that find none; `rest` is the script after it. It stands in the script, or
the script is used up and the host supplies `k` without end. -/
def Terminal.NextKeyIs (t : Terminal) (k : Byte) (rest : List KeyEvent) : Prop :=
  ∃ n, t.script = List.replicate n .quiet ++ .key k :: rest ∨
    (t.script = List.replicate n .quiet ∧ t.atEnd = .typing k ∧ rest = [])

/-- The next keystroke read is cancelled, by the host or by the end of the input stream (R213). -/
def Terminal.CancelsNext (t : Terminal) (rest : List KeyEvent) : Prop :=
  ∃ n, t.script = List.replicate n .quiet ++ .cancel :: rest ∨
    (t.script = List.replicate n .quiet ∧ t.atEnd = .closed ∧ rest = [])

/-- The host neither supplies a key nor cancels (R226: stuck). -/
def Terminal.StaysSilent (t : Terminal) : Prop :=
  t.atEnd = .silent ∧ ∃ n, t.script = List.replicate n .quiet

/-- The state with another script. -/
def State.withScript (s : State) (r : List KeyEvent) : State := { s with term := { s.term with script := r } }

/-- The terminal with another script. -/
def Terminal.withScript (t : Terminal) (r : List KeyEvent) : Terminal := { t with script := r }

/-- Ordinary storage: any address but the two device registers (R42). -/
abbrev Ordinary (a : Word) : Prop := a ≠ 0xFE00#16 ∧ a ≠ 0xFE02#16

/-- `ReadsAs s a v u`: in `s` the one-word read of `a` gives `v` and leaves `u` (R43 to R45). -/
inductive ReadsAs (s : State) : Word → Word → State → Prop
  | storage (a : Word) : Ordinary a → ReadsAs s a (s.mem.read a.toNat) s
  | ready (k : Byte) (r : List KeyEvent) : s.term.script = .key k :: r → ReadsAs s 0xFE00#16 0x8000#16 s
  | notReady (r : List KeyEvent) : s.term.script = .quiet :: r → ReadsAs s 0xFE00#16 0x0000#16 (s.withScript r)
  | cancelling (r : List KeyEvent) : s.term.script = .cancel :: r → ReadsAs s 0xFE00#16 0x0000#16 s
  | ended : s.term.script = [] → s.term.atEnd = .closed ∨ s.term.atEnd = .silent → ReadsAs s 0xFE00#16 0x0000#16 s
  | typing (k : Byte) : s.term.script = [] → s.term.atEnd = .typing k → ReadsAs s 0xFE00#16 0x8000#16 s
  | data (k : Byte) (r : List KeyEvent) : s.term.NextKeyIs k r →
      ReadsAs s 0xFE02#16 (0x00#8 ++ k)
        { s.withScript r with mem := s.mem.write 0xFE02 (highByte (s.mem.read 0xFE02) ++ k) }

/-- In `s` the read of `a` is cancelled and the terminal is left as `t` (R45, R213). -/
def ReadCancels (s : State) (a : Word) (t : Terminal) : Prop :=
  a = 0xFE02#16 ∧ ∃ r, s.term.CancelsNext r ∧ t = s.term.withScript r

/-- In `s` the read of `a` holds the core for good (R45, R226). -/
def ReadHolds (s : State) (a : Word) : Prop := a = 0xFE02#16 ∧ s.term.StaysSilent

/-! ### String services -/

/-- A string format: which word ends the string and which bytes any other word writes. -/
structure StringFormat where
  ends : Word → Bool
  bytes : Word → List Byte

/-- PUTS (R174). -/
def putsFormat : StringFormat where
  ends w := w == 0x0000#16
  bytes w := [w.setWidth 8]

/-- PUTSP (R176). -/
def putspFormat : StringFormat where
  ends w := w.setWidth 8 == 0x00#8
  bytes w := w.setWidth 8 :: if w >>> 8 = 0x0000#16 then [] else [(w >>> 8).setWidth 8]

/-- The state after `bs` have been written. -/
def State.wrote (s : State) (bs : List Byte) : State := { s with term := { s.term with output := s.term.output ++ bs } }

/-- The walk from `p` in `s` ends at its terminator and leaves `t` (the loops of R174 and R176). -/
inductive StringRuns (f : StringFormat) : Word → State → State → Prop
  | stop {p w : Word} {s u : State} : ReadsAs s p w u → f.ends w = true → StringRuns f p s u
  | char {p w : Word} {s u t : State} : ReadsAs s p w u → f.ends w = false →
      StringRuns f (p + 1#16) (u.wrote (f.bytes w)) t → StringRuns f p s t

/-- The walk from `p` in `s` comes to a read that is cancelled, which leaves the terminal `t` (R174, R213). -/
inductive StringCancels (f : StringFormat) : Word → State → Terminal → Prop
  | here {p : Word} {s : State} {t : Terminal} : ReadCancels s p t → StringCancels f p s t
  | later {p w : Word} {s u : State} {t : Terminal} : ReadsAs s p w u → f.ends w = false →
      StringCancels f (p + 1#16) (u.wrote (f.bytes w)) t → StringCancels f p s t

/-- The walk from `p` in `s` comes to a read that holds the core (R226). -/
inductive StringHolds (f : StringFormat) : Word → State → Prop
  | here {p : Word} {s : State} : ReadHolds s p → StringHolds f p s
  | later {p w : Word} {s u : State} : ReadsAs s p w u → f.ends w = false →
      StringHolds f (p + 1#16) (u.wrote (f.bytes w)) → StringHolds f p s

/-- The walk from `p` in `s` goes on past its first `n` words, which lead to `t`. -/
inductive StringRounds (f : StringFormat) : Nat → Word → State → State → Prop
  | zero {p : Word} {s : State} : StringRounds f 0 p s s
  | succ {n : Nat} {p w : Word} {s u t : State} : ReadsAs s p w u → f.ends w = false →
      StringRounds f n (p + 1#16) (u.wrote (f.bytes w)) t → StringRounds f (n + 1) p s t

/-- The walk from `p` in `s` goes on past any number of words: it never ends (R174, R226). -/
def StringNeverEnds (f : StringFormat) (p : Word) (s : State) : Prop := ∀ n, ∃ t, StringRounds f n p s t

/-! ### What an instruction leaves -/

/-- COND after a value is written to a result register (R27). -/
def FlagFor (v : Word) (c : Cond) : Prop :=
  (v.toNat = 0 ∧ c = .z) ∨ (32768 ≤ v.toNat ∧ c = .n) ∨ (0 < v.toNat ∧ v.toNat < 32768 ∧ c = .p)

/-- From `s` to `t`: the result register holds `v` and COND is its flag, and nothing else has changed. -/
structure ResultWritten (dr : RegField) (v : Word) (s t : State) : Prop where
  result : t.reg dr = v
  flag : FlagFor v t.cond
  regs : ∀ r, r ≠ dr → t.reg r = s.reg r
  pc : t.pc = s.pc
  mem : t.mem = s.mem
  status : t.status = s.status
  term : t.term = s.term
  params : t.params = s.params

/-- From `s` to `t`: `v` has been stored at `a`, or nowhere if `a` is a device register (R46), and nothing else has changed.
Only that `v` is read back asks for a canonical memory. -/
structure Stored (a v : Word) (s t : State) : Prop where
  stored : s.mem.wf = true → Ordinary a → t.mem.read a.toNat = v
  ignored : ¬ Ordinary a → t.mem = s.mem
  others : ∀ b : Word, b ≠ a → t.mem.read b.toNat = s.mem.read b.toNat
  regs : ∀ r, t.reg r = s.reg r
  cond : t.cond = s.cond
  pc : t.pc = s.pc
  status : t.status = s.status
  term : t.term = s.term
  params : t.params = s.params

/-- From `s` to `t`: the only general register that may differ is R7, which holds the return address, and COND, memory, status,
terminal and parameters are unchanged. PC is said apart. -/
structure Linked (s t : State) : Prop where
  link : t.reg 7#3 = s.pc
  regs : ∀ r, r ≠ 7#3 → t.reg r = s.reg r
  cond : t.cond = s.cond
  mem : t.mem = s.mem
  status : t.status = s.status
  term : t.term = s.term
  params : t.params = s.params

/-- The result of an aborted instruction that entered (after its fetch) with `s`: the core as before its fetch, status
Aborted at the fetch address, the terminal as the host has seen it (R213). -/
def RolledBack (s : State) (t : Terminal) : State :=
  { s with pc := s.pc - 1#16, status := .aborted (s.pc - 1#16), term := t }

end Sys2Proof.Machine

namespace Sys2Proof

/-! ### What an instruction may write -/

/-- Whether an instruction may write general register `r` (the table of R22). -/
def Instr.mayWriteReg (i : Instr) (r : RegField) : Prop :=
  match i with
  | .addReg dr _ _ => r = dr
  | .addImm dr _ _ => r = dr
  | .andReg dr _ _ => r = dr
  | .andImm dr _ _ => r = dr
  | .not dr _ => r = dr
  | .ld dr _ => r = dr
  | .ldi dr _ => r = dr
  | .lea dr _ => r = dr
  | .ldr dr _ _ => r = dr
  | .st .. => False
  | .sti .. => False
  | .str .. => False
  | .br .. => False
  | .jmp .. => False
  | .jsr .. => r = 7#3
  | .jsrr .. => r = 7#3
  | .trap v => r = 7#3 ∨ (r = 0#3 ∧ (v = 0x20#8 ∨ v = 0x23#8))
  | .getc => r = 7#3 ∨ r = 0#3
  | .inKey => r = 7#3 ∨ r = 0#3
  | .out => r = 7#3
  | .puts => r = 7#3
  | .putsp => r = 7#3
  | .halt => r = 7#3
  | .rti => False
  | .reserved => False

/-- Whether an instruction writes COND (R28). -/
def Instr.mayWriteCond : Instr → Prop
  | .addReg .. | .addImm .. | .andReg .. | .andImm .. | .not .. | .ld .. | .ldr .. | .ldi .. | .lea .. => True
  | .getc | .inKey => True
  | .trap v => v = 0x20#8 ∨ v = 0x23#8
  | .st .. | .str .. | .sti .. | .br .. | .jmp .. | .jsr .. | .jsrr .. | .out | .puts | .putsp | .halt | .rti
  | .reserved => False

/-- Whether an instruction is a store (R47). -/
def Instr.isStore : Instr → Prop
  | .st .. | .str .. | .sti .. => True
  | .br .. | .addReg .. | .addImm .. | .ld .. | .jsr .. | .jsrr .. | .andReg .. | .andImm .. | .ldr .. | .rti
  | .not .. | .ldi .. | .jmp .. | .reserved | .lea .. | .trap .. | .getc | .out | .puts | .inKey | .putsp
  | .halt => False

/-- Whether an instruction writes PC beyond the fetch increment (R25). -/
def Instr.movesPc : Instr → Prop
  | .br .. | .jsr .. | .jsrr .. | .jmp .. => True
  | .addReg .. | .addImm .. | .ld .. | .st .. | .andReg .. | .andImm .. | .ldr .. | .str .. | .rti | .not ..
  | .ldi .. | .sti .. | .reserved | .lea .. | .trap .. | .getc | .out | .puts | .inKey | .putsp | .halt => False

/-- Whether an instruction can wait for a keystroke after its fetch (R179, R246). -/
def Instr.mayWait : Instr → Prop
  | .ld .. | .ldr .. | .ldi .. | .sti .. | .getc | .inKey | .puts | .putsp => True
  | .trap v => v = 0x20#8 ∨ v = 0x22#8 ∨ v = 0x23#8 ∨ v = 0x24#8
  | .br .. | .addReg .. | .addImm .. | .st .. | .jsr .. | .jsrr .. | .andReg .. | .andImm .. | .str .. | .rti
  | .not .. | .jmp .. | .reserved | .lea .. | .out | .halt => False

end Sys2Proof
end

