-- ==== Sys2Proof/Certificates/Slice0/Obligations.lean ====
section
/-! DEFINITION. The statements for the provers. The vocabulary (ReadsAs, ResultWritten, Stored, Linked, StringRuns, …) is in
Sys2Proof/Safety.lean. In every statement about `exec` the state is the one after the fetch: its PC is the incremented PC
(R76) and `s.pc - 1` the fetch address. Terminal, script and parameters are data of the state, so each statement holds for
every host and every value of the OPEN parameters (log 6, 13). -/

open Sys2Proof Sys2Proof.Machine

/-! ### Encoding -/

/-- Decoding an encoded well-formed instruction gives it back, for every instruction and every operand (R62, R66; field
positions and opcode numbers are the spec's decisions D27, D28, log 17). -/
def Obligations.DecodeInvertsEncode : Prop :=
  ∀ i : Instr, i.wellFormed = true → decode (encode i) = i

/-- Encoding a decoded word gives the word back with its ignored bits cleared (R62, R63; D10, D27, log 17, 25). -/
def Obligations.EncodeInvertsDecodeUpToIgnoredBits : Prop :=
  ∀ w : Word, encode (decode w) = w &&& ~~~ ignoredBits w

/-- Bits marked ignored do not affect decoding: a word that differs from another in such bits only decodes the same
(R63; D10, log 25). -/
def Obligations.IgnoredBitsNeverMatter : Prop :=
  ∀ w w' : Word, (w ^^^ w') &&& ~~~ ignoredBits w = 0#16 → decode w' = decode w

/-- Decode is total: every word gives one row of the opcode table, that of its bits 15:12, in canonical form (R61, R66, R67;
D27, log 17). -/
def Obligations.EveryWordDecodesToOneRow : Prop :=
  ∀ w : Word, (decode w).wellFormed = true ∧ (decode w).opcode = Opcode.ofBits (w.extractLsb' 12 4)

/-- The format table of R62 row by row, high bit to low bit, with any value in the ignored bits `x`, `y` (D10, D27, D28,
log 17, 25). -/
def Obligations.EveryFieldIsReadFromItsPlace : Prop :=
  (∀ (n z p : Bool) (i : BitVec 9),
    decode ((0#4 ++ BitVec.ofBool n ++ BitVec.ofBool z ++ BitVec.ofBool p ++ i).setWidth 16) = .br n z p i) ∧
  (∀ (d s t : RegField) (x : BitVec 2), decode ((1#4 ++ d ++ s ++ 0#1 ++ x ++ t).setWidth 16) = .addReg d s t) ∧
  (∀ (d s : RegField) (i : BitVec 5), decode ((1#4 ++ d ++ s ++ 1#1 ++ i).setWidth 16) = .addImm d s i) ∧
  (∀ (d : RegField) (i : BitVec 9), decode ((2#4 ++ d ++ i).setWidth 16) = .ld d i) ∧
  (∀ (d : RegField) (i : BitVec 9), decode ((3#4 ++ d ++ i).setWidth 16) = .st d i) ∧
  (∀ i : BitVec 11, decode ((4#4 ++ 1#1 ++ i).setWidth 16) = .jsr i) ∧
  (∀ (s : RegField) (x : BitVec 2) (y : BitVec 6), decode ((4#4 ++ 0#1 ++ x ++ s ++ y).setWidth 16) = .jsrr s) ∧
  (∀ (d s t : RegField) (x : BitVec 2), decode ((5#4 ++ d ++ s ++ 0#1 ++ x ++ t).setWidth 16) = .andReg d s t) ∧
  (∀ (d s : RegField) (i : BitVec 5), decode ((5#4 ++ d ++ s ++ 1#1 ++ i).setWidth 16) = .andImm d s i) ∧
  (∀ (d s : RegField) (i : BitVec 6), decode ((6#4 ++ d ++ s ++ i).setWidth 16) = .ldr d s i) ∧
  (∀ (d s : RegField) (i : BitVec 6), decode ((7#4 ++ d ++ s ++ i).setWidth 16) = .str d s i) ∧
  (∀ x : BitVec 12, decode ((8#4 ++ x).setWidth 16) = .rti) ∧
  (∀ (d s : RegField) (x : BitVec 6), decode ((9#4 ++ d ++ s ++ x).setWidth 16) = .not d s) ∧
  (∀ (d : RegField) (i : BitVec 9), decode ((10#4 ++ d ++ i).setWidth 16) = .ldi d i) ∧
  (∀ (d : RegField) (i : BitVec 9), decode ((11#4 ++ d ++ i).setWidth 16) = .sti d i) ∧
  (∀ (x : BitVec 3) (s : RegField) (y : BitVec 6), decode ((12#4 ++ x ++ s ++ y).setWidth 16) = .jmp s) ∧
  (∀ x : BitVec 12, decode ((13#4 ++ x).setWidth 16) = .reserved) ∧
  (∀ (d : RegField) (i : BitVec 9), decode ((14#4 ++ d ++ i).setWidth 16) = .lea d i) ∧
  (∀ (x : BitVec 4) (v : BitVec 8), isServiceVector v = false → decode ((15#4 ++ x ++ v).setWidth 16) = .trap v) ∧
  (∀ x : BitVec 4, decode ((15#4 ++ x ++ 0x20#8).setWidth 16) = .getc ∧
    decode ((15#4 ++ x ++ 0x21#8).setWidth 16) = .out ∧
    decode ((15#4 ++ x ++ 0x22#8).setWidth 16) = .puts ∧
    decode ((15#4 ++ x ++ 0x23#8).setWidth 16) = .inKey ∧
    decode ((15#4 ++ x ++ 0x24#8).setWidth 16) = .putsp ∧
    decode ((15#4 ++ x ++ 0x25#8).setWidth 16) = .halt)

/-- A few words of 95_test_vectors.md decode to the instructions the spec writes beside them. -/
def Obligations.SampleWordsDecodeAsTheSpecSays : Prop :=
  decode 0x03FD#16 = .br false false true 0x1FD#9 ∧ decode 0x107F#16 = .addImm 0#3 1#3 0x1F#5 ∧
  decode 0x1042#16 = .addReg 0#3 1#3 2#3 ∧ decode 0x3402#16 = .st 2#3 2#9 ∧ decode 0x4805#16 = .jsr 5#11 ∧
  decode 0x41C0#16 = .jsrr 7#3 ∧ decode 0x5401#16 = .andReg 2#3 0#3 1#3 ∧ decode 0x607F#16 = .ldr 0#3 1#3 0x3F#6 ∧
  decode 0xC1C0#16 = .jmp 7#3 ∧ decode 0xFF25#16 = .halt ∧ decode 0xF099#16 = .trap 0x99#8 ∧
  decode 0xD000#16 = .reserved

/-! ### Operands, flags, register file -/

/-- Sign and zero extension (R9): the formula of the rule at the widths 5, 6, 9 and 11, the bits of the result at each, and
the zero bits above a byte. -/
def Obligations.SignExtensionFollowsItsRule : Prop :=
  (∀ v : BitVec 5, sext v = if v.msb then v.setWidth 16 ||| 0xFFE0#16 else v.setWidth 16) ∧
  (∀ v : BitVec 6, sext v = if v.msb then v.setWidth 16 ||| 0xFFC0#16 else v.setWidth 16) ∧
  (∀ v : BitVec 9, sext v = if v.msb then v.setWidth 16 ||| 0xFE00#16 else v.setWidth 16) ∧
  (∀ v : BitVec 11, sext v = if v.msb then v.setWidth 16 ||| 0xF800#16 else v.setWidth 16) ∧
  (∀ (n : Nat) (v : BitVec n), n = 5 ∨ n = 6 ∨ n = 9 ∨ n = 11 →
    (sext v).toInt = v.toInt ∧ ∀ i < 16, (sext v).getLsbD i = v.getLsbD (if i < n then i else n - 1)) ∧
  (∀ (b : Byte) (i : Nat), (zext b).getLsbD i = (decide (i < 8) && b.getLsbD i))

/-- The flag update of R27: Z for zero, N with bit 15 set, P otherwise; it is part of writing a result register, whose new
value it is computed from, and changes COND alone. -/
def Obligations.FlagUpdateFollowsItsRule : Prop :=
  ∀ (s : State) (dr : RegField) (v : Word),
    (v = 0x0000#16 → (s.setcc v).cond = .z) ∧
    (v.getLsbD 15 = true → (s.setcc v).cond = .n) ∧
    (v ≠ 0x0000#16 → v.getLsbD 15 = false → (s.setcc v).cond = .p) ∧
    { s.setcc v with cond := s.cond } = s ∧
    (s.writeResult dr v).reg dr = v ∧
    (s.writeResult dr v).cond = (s.setcc ((s.writeResult dr v).reg dr)).cond

/-- The register file of 10 slots (R23): R0 to R7, then PC, then COND as a one-hot word of bits 2:0 (R26, R29; the bit
positions are the spec's decision D28, log 17). -/
def Obligations.RegisterFileSlots : Prop :=
  ∀ s : State,
    (∀ r : RegField, s.slot ⟨r.toNat, Nat.lt_trans r.isLt (by decide)⟩ = s.reg r) ∧ s.slot 8 = s.pc ∧
    (s.slot 9 = 0x0001#16 ↔ s.cond = .p) ∧ (s.slot 9 = 0x0002#16 ↔ s.cond = .z) ∧
    (s.slot 9 = 0x0004#16 ↔ s.cond = .n)

/-! ### Memory and the bridge -/

/-- The one-word read is the relation `ReadsAs`, its cancellation `ReadCancels` and its hold `ReadHolds`, each way (R42 to
R45, R213). The device addresses are the spec's decision D4 (log 4), KBSR's low bits and KBDR's high byte its D5 and D6 (log
24), the end of the stream as a cancellation its D12 (log 8); the script with its polls, the ends of the script and the
backing cell are the model's (log 6, 7, 14). -/
def Obligations.BridgedReadsFollowTheirRules : Prop :=
  ∀ (s : State) (a : Word),
    (∀ v u, s.memRead a = .value v u ↔ ReadsAs s a v u) ∧
    (∀ t, s.memRead a = .cancelled t ↔ ReadCancels s a t) ∧
    (s.memRead a = .held ↔ ReadHolds s a)

/-- The one-word write stores at an ordinary address, has no effect at a device address (D7, log 24), keeps memory
canonical, and a read of the address then gives the value (R43, R46, R53). -/
def Obligations.BridgedWritesFollowTheirRule : Prop :=
  ∀ (s : State) (a v : Word), s.mem.wf = true →
    Stored a v s (s.memWrite a v) ∧ (s.memWrite a v).mem.wf = true ∧
    (Ordinary a → ReadsAs (s.memWrite a v) a v (s.memWrite a v))

/-- Two canonical memories that read the same at every one of the 65536 addresses are the same list (log 1). -/
def Obligations.CanonicalMemoriesWithEqualReadsAreEqual : Prop :=
  ∀ m m' : Memory, m.wf = true → m'.wf = true → (∀ a : Word, m.read a.toNat = m'.read a.toNat) → m = m'

/-! ### Operate instructions and LEA -/

/-- ADD in both modes answers a next state whose DR is the sum modulo 2^16 of the sources as they were, with COND its flag and
nothing else changed (41_operate.md R120, R121, R125). -/
def Obligations.AddWritesTheSumModulo65536 : Prop :=
  ∀ (s : State) (dr sr1 : RegField),
    (∀ sr2, ∃ t v, exec (.addReg dr sr1 sr2) s = .next t ∧ ResultWritten dr v s t ∧
      v.toNat = ((s.reg sr1).toNat + (s.reg sr2).toNat) % 65536) ∧
    (∀ imm5, ∃ t v, exec (.addImm dr sr1 imm5) s = .next t ∧ ResultWritten dr v s t ∧
      (v.toNat : Int) = ((s.reg sr1).toNat + imm5.toInt) % 65536)

/-- AND in both modes answers a next state whose DR is the bitwise AND of the sources, the immediate sign-extended, with COND
its flag and nothing else changed (R122, R123). -/
def Obligations.AndWritesTheBitwiseConjunction : Prop :=
  ∀ (s : State) (dr sr1 : RegField),
    (∀ sr2, ∃ t v, exec (.andReg dr sr1 sr2) s = .next t ∧ ResultWritten dr v s t ∧
      ∀ i, v.getLsbD i = ((s.reg sr1).getLsbD i && (s.reg sr2).getLsbD i)) ∧
    (∀ imm5, ∃ t v, exec (.andImm dr sr1 imm5) s = .next t ∧ ResultWritten dr v s t ∧
      ∀ i < 16, v.getLsbD i = ((s.reg sr1).getLsbD i && imm5.getLsbD (if i < 5 then i else 4)))

/-- NOT answers a next state whose DR is the complement of SR, with COND its flag and nothing else changed (R124). -/
def Obligations.NotWritesTheComplement : Prop :=
  ∀ (s : State) (dr sr : RegField), ∃ t v, exec (.not dr sr) s = .next t ∧ ResultWritten dr v s t ∧
    v.toNat = 65535 - (s.reg sr).toNat

/-- LEA answers a next state whose DR is PC plus the offset modulo 2^16, with COND its flag; no memory or device is touched
(R146). -/
def Obligations.LeaWritesTheAddressAndTouchesNoMemory : Prop :=
  ∀ (s : State) (dr : RegField) (off9 : BitVec 9), ∃ t v, exec (.lea dr off9) s = .next t ∧ ResultWritten dr v s t ∧
    (v.toNat : Int) = (s.pc.toNat + off9.toInt) % 65536

/-! ### Loads and stores -/

/-- LD and LDR: wherever the read of the effective address gives a word, they answer a next state with that word in DR, COND
its flag, and the rest as the read leaves it (R140, R142). -/
def Obligations.DirectLoadsWriteTheWordRead : Prop :=
  ∀ (s u : State) (v : Word) (dr : RegField),
    (∀ off9 : BitVec 9, ReadsAs s (s.pc + off9.signExtend 16) v u →
      ∃ t, exec (.ld dr off9) s = .next t ∧ ResultWritten dr v u t) ∧
    (∀ (baseR : RegField) (off6 : BitVec 6), ReadsAs s (s.reg baseR + off6.signExtend 16) v u →
      ∃ t, exec (.ldr dr baseR off6) s = .next t ∧ ResultWritten dr v u t)

/-- LDI: wherever the pointer read and the read through it give words, it answers a next state with the second word in DR
and COND its flag (R144). -/
def Obligations.IndirectLoadWritesTheWordPointedTo : Prop :=
  ∀ (s u w : State) (p v : Word) (dr : RegField) (off9 : BitVec 9),
    ReadsAs s (s.pc + off9.signExtend 16) p u → ReadsAs u p v w →
      ∃ t, exec (.ldi dr off9) s = .next t ∧ ResultWritten dr v w t

/-- The frame of LD, LDR, LDI (R140, R142, R144, R147): whenever they answer a next state, every register but DR, every
memory word but the low byte of the keyboard data backing cell (R45, log 14), the output, the parameters and what the host
does past its script are as before, and the script has only been used; PC and status are as before unless the input was
aborted, and then all registers and memory and COND are (R213; D12, log 22; the used script: log 11). -/
def Obligations.LoadsChangeNothingElse : Prop :=
  ∀ (s t : State) (dr baseR : RegField) (off9 : BitVec 9) (off6 : BitVec 6) (i : Instr),
    i = .ld dr off9 ∨ i = .ldr dr baseR off6 ∨ i = .ldi dr off9 → exec i s = .next t →
      (∀ r, r ≠ dr → t.reg r = s.reg r) ∧
      (∀ a : Word, a ≠ 0xFE02#16 → t.mem.read a.toNat = s.mem.read a.toNat) ∧
      (s.mem.wf = true → highByte (t.mem.read 0xFE02) = highByte (s.mem.read 0xFE02)) ∧
      t.term.output = s.term.output ∧ (∃ used, s.term.script = used ++ t.term.script) ∧
      t.term.atEnd = s.term.atEnd ∧ t.term.resumes = s.term.resumes ∧ t.params = s.params ∧
      ((t.pc = s.pc ∧ t.status = s.status) ∨
        (∃ t', t = RolledBack s t' ∧ t.regs = s.regs ∧ t.cond = s.cond ∧ t.mem = s.mem))

/-- ST and STR answer a next state on every state: SR is stored at the effective address, or nowhere if that is a device
register, and nothing else changes (R141, R143, R46; D7, log 24). Within `Stored` the one clause that the stored word is
read back asks for a canonical memory, which every step keeps. -/
def Obligations.DirectStoresWriteOneWord : Prop :=
  ∀ (s : State) (sr : RegField),
    (∀ off9 : BitVec 9, ∃ t, exec (.st sr off9) s = .next t ∧ Stored (s.pc + off9.signExtend 16) (s.reg sr) s t) ∧
    (∀ (baseR : RegField) (off6 : BitVec 6), ∃ t, exec (.str sr baseR off6) s = .next t ∧
      Stored (s.reg baseR + off6.signExtend 16) (s.reg sr) s t)


/-- STI: wherever the pointer read gives a word, it answers a next state with SR stored at that address, or nowhere if it is a
device register, and the rest as the pointer read leaves it (R145, R46; D7, log 24). Within `Stored` the one clause that the
stored word is read back asks for a canonical memory, which the pointer read keeps. -/
def Obligations.IndirectStoreWritesOneWord : Prop :=
  ∀ (s u : State) (p : Word) (sr : RegField) (off9 : BitVec 9), ReadsAs s (s.pc + off9.signExtend 16) p u →
    (∃ t, exec (.sti sr off9) s = .next t ∧ Stored p (s.reg sr) u t) ∧ (s.mem.wf = true → u.mem.wf = true)


/-! ### Control transfer -/

/-- BR answers a next state that differs in PC at most: PC plus the offset where the condition bits meet the condition word,
PC otherwise (R100; the pairing of bits and flags is the spec's decision D28, log 17). -/
def Obligations.BranchFollowsItsConditionBits : Prop :=
  ∀ (s : State) (n z p : Bool) (off9 : BitVec 9), ∃ t, exec (.br n z p off9) s = .next t ∧ { t with pc := s.pc } = s ∧
    ((BitVec.ofBool n ++ BitVec.ofBool z ++ BitVec.ofBool p).setWidth 16 &&& s.slot 9 ≠ 0#16 →
      (t.pc.toNat : Int) = (s.pc.toNat + off9.toInt) % 65536) ∧
    ((BitVec.ofBool n ++ BitVec.ofBool z ++ BitVec.ofBool p).setWidth 16 &&& s.slot 9 = 0#16 → t.pc = s.pc)

/-- JSR answers a next state: R7 holds the incremented PC, PC is PC plus the offset modulo 2^16, COND and all else as before
(R101; that COND is untouched is the spec's decision D16, log 18). -/
def Obligations.JsrLinksAndJumps : Prop :=
  ∀ (s : State) (off11 : BitVec 11), ∃ t, exec (.jsr off11) s = .next t ∧ Linked s t ∧
    (t.pc.toNat : Int) = (s.pc.toNat + off11.toInt) % 65536

/-- JSRR answers a next state: R7 holds the incremented PC, and PC is BaseR read after that write, so JSRR R7 goes on with the
next instruction (R102; the order is the spec's decision D17, log 19, and COND's D16, log 18). -/
def Obligations.JsrrLinksBeforeReadingBase : Prop :=
  ∀ (s : State) (baseR : RegField), ∃ t, exec (.jsrr baseR) s = .next t ∧ Linked s t ∧
    (baseR ≠ 7#3 → t.pc = s.reg baseR) ∧ (baseR = 7#3 → t.pc = s.pc)

/-- JMP answers a next state that differs in PC alone, which is BaseR's value; RET is JMP R7 (R103). -/
def Obligations.JmpGoesToItsBase : Prop :=
  (∀ (s : State) (baseR : RegField), ∃ t, exec (.jmp baseR) s = .next t ∧ t.pc = s.reg baseR ∧ { t with pc := s.pc } = s) ∧
  decode 0xC1C0#16 = .jmp 7#3

/-! ### Traps and faults -/

/-- TRAP with a service vector does what that service's own instruction does (R170, R171); with OUT's and HALT's vectors it
answers a next state on every state, with R7 = PC and PC unmoved. That a service leaves PC is the spec's decision D15
(log 20). -/
def Obligations.TrapSelectsItsService : Prop :=
  ∀ s : State, exec (.trap 0x20#8) s = exec .getc s ∧ exec (.trap 0x21#8) s = exec .out s ∧
    exec (.trap 0x22#8) s = exec .puts s ∧ exec (.trap 0x23#8) s = exec .inKey s ∧
    exec (.trap 0x24#8) s = exec .putsp s ∧ exec (.trap 0x25#8) s = exec .halt s ∧
    (∃ t, exec (.trap 0x21#8) s = .next t ∧ t.reg 7#3 = s.pc ∧ t.pc = s.pc ∧ t.status = s.status) ∧
    (∃ t, exec (.trap 0x25#8) s = .next t ∧ t.reg 7#3 = s.pc ∧ t.pc = s.pc ∧ t.status = .halted)

/-- TRAP with any other vector raises IllegalTrap after the link: R7 = PC = a + 1, status Faulted with the fetch address a and
the vector, nothing else changed and nothing written (R178, R212; the state left is the spec's decision D11, log 21). -/
def Obligations.IllegalTrapFaultsAfterTheLink : Prop :=
  ∀ (s : State) (v : BitVec 8), v.toNat < 0x20 ∨ 0x25 < v.toNat →
    ∃ t, exec (.trap v) s = .next t ∧ Linked s { t with status := s.status } ∧ t.pc = s.pc ∧
      t.status = .faulted (.illegalTrap v) (s.pc - 1#16)

/-- RTI and the reserved opcode raise IllegalOpcode: status Faulted with the fetch address and the opcode value, nothing else
changed (R200, R201, R211; the address is the spec's decision D11, log 21). -/
def Obligations.IllegalOpcodesFault : Prop :=
  ∀ s : State,
    (∃ t, exec .rti s = .next t ∧ { t with status := s.status } = s ∧
      t.status = .faulted (.illegalOpcode 8#4) (s.pc - 1#16)) ∧
    (∃ t, exec .reserved s = .next t ∧ { t with status := s.status } = s ∧
      t.status = .faulted (.illegalOpcode 13#4) (s.pc - 1#16))

/-- GETC: whenever a keystroke comes, it answers a next state with the key zero-extended in R0, R7 = PC, COND Z for key 0 and
P otherwise, the key taken from the host, and nothing written (R170, R172; that PC does not move is the spec's decision D15,
log 20, and COND its decision D16, log 18). -/
def Obligations.GetcReadsOneKeyWithoutEcho : Prop :=
  ∀ (s : State) (k : Byte) (rest : List KeyEvent), s.term.NextKeyIs k rest →
    ∃ t, exec .getc s = .next t ∧ t.reg 0#3 = 0x00#8 ++ k ∧ t.reg 7#3 = s.pc ∧
      (∀ r, r ≠ 0#3 → r ≠ 7#3 → t.reg r = s.reg r) ∧ t.cond = (if k = 0x00#8 then .z else .p) ∧
      t.pc = s.pc ∧ t.mem = s.mem ∧ t.status = s.status ∧ t.term = s.term.withScript rest ∧ t.params = s.params

/-- OUT answers a next state: the low byte of R0 is appended to the output and R7 = PC, nothing else changed (R170, R173; that PC
does not move is the spec's decision D15, log 20, and that the link leaves COND its decision D16, log 18). -/
def Obligations.OutWritesTheLowByte : Prop :=
  ∀ s : State, ∃ t, exec .out s = .next t ∧ Linked s { t with term := s.term } ∧ t.pc = s.pc ∧
    ∃ b : Byte, b.toNat = (s.reg 0#3).toNat % 256 ∧ t.term = { s.term with output := s.term.output ++ [b] }

/-- IN: whenever a keystroke comes, it answers a next state: the prompt and then the key are appended to the output, R0 holds
the key zero-extended, R7 = PC, COND is R0's flag (R170, R175; PC: D15, log 20; COND: D16, log 18; the prompt and the order:
D18, D25, log 13, 29). -/
def Obligations.InPromptsReadsAndEchoes : Prop :=
  ∀ (s : State) (k : Byte) (rest : List KeyEvent), s.term.NextKeyIs k rest →
    ∃ t, exec .inKey s = .next t ∧ t.reg 0#3 = 0x00#8 ++ k ∧ t.reg 7#3 = s.pc ∧
      (∀ r, r ≠ 0#3 → r ≠ 7#3 → t.reg r = s.reg r) ∧ t.cond = (if k = 0x00#8 then .z else .p) ∧
      t.pc = s.pc ∧ t.mem = s.mem ∧ t.status = s.status ∧ t.params = s.params ∧
      t.term = { s.term with script := rest, output := s.term.output ++ s.params.inPrompt ++ [k] }

/-- HALT answers a next state: the notice is appended to the output, R7 = PC, status Halted, nothing else changed, and no step
follows (R170, R177, R78; PC: D15, log 20; COND: D16, log 18; the notice and the final state: D18, D24, log 13, 29). -/
def Obligations.HaltWritesTheNoticeAndHalts : Prop :=
  ∀ s : State, ∃ t, exec .halt s = .next t ∧ Linked s { t with term := s.term, status := s.status } ∧ t.pc = s.pc ∧
    t.status = .halted ∧ t.term = { s.term with output := s.term.output ++ s.params.haltNotice } ∧
    ∀ u, step t ≠ .next u

/-- PUTS and PUTSP on a string in ordinary storage, at any address and across the top of memory: the bytes of its words are
appended to the output in order, R7 = PC, and nothing else changes (R170, R174, R176; the walk and the character: D9, D22,
log 23; PC: D15, log 20; COND: D16, log 18). -/
def Obligations.StringServicesPrintOrdinaryMemory : Prop :=
  ∀ (s : State) (f : StringFormat) (i : Instr) (ws : List Word) (last : Word),
    (f = putsFormat ∧ i = .puts) ∨ (f = putspFormat ∧ i = .putsp) →
    (∀ k (h : k < (ws ++ [last]).length), Ordinary (s.reg 0#3 + BitVec.ofNat 16 k) ∧
      s.mem.read (s.reg 0#3 + BitVec.ofNat 16 k).toNat = (ws ++ [last])[k]) →
    (∀ w ∈ ws, f.ends w = false) → f.ends last = true →
      exec i s = .next ((s.setReg 7#3 s.pc).wrote (ws.flatMap f.bytes))

/-- PUTS and PUTSP are exactly the loops of R174 and R176 after the link write of R170, for every memory and every host: they
answer the state the loop leaves, the rolled-back state where the loop's input is aborted, and take no step where the host
stays silent or the loop never ends; there is no other outcome. The walk through the bridge and the character are the
spec's decisions D9 and D22 (log 23), the rollback and the end of the stream as a cancellation its D12 (log 8, 22), PC and
COND its D15 and D16 (log 18, 20). That keys and polls an aborted walk has taken stay taken is the model's inference (log
11), which R213 says of output alone; so is the backing cell (log 14); the two stops are the model's faults (log 7, 15). -/
def Obligations.StringServicesFollowTheirLoops : Prop :=
  ∀ (s : State) (f : StringFormat) (i : Instr), (f = putsFormat ∧ i = .puts) ∨ (f = putspFormat ∧ i = .putsp) →
    (∀ t, StringRuns f (s.reg 0#3) (s.setReg 7#3 s.pc) t → exec i s = .next t) ∧
    (∀ t, StringCancels f (s.reg 0#3) (s.setReg 7#3 s.pc) t → exec i s = .next (RolledBack s t)) ∧
    (StringHolds f (s.reg 0#3) (s.setReg 7#3 s.pc) → exec i s = .fault .heldForKey) ∧
    (StringNeverEnds f (s.reg 0#3) (s.setReg 7#3 s.pc) → exec i s = .fault .walkUnending) ∧
    ((∃ t, StringRuns f (s.reg 0#3) (s.setReg 7#3 s.pc) t) ∨ (∃ t, StringCancels f (s.reg 0#3) (s.setReg 7#3 s.pc) t) ∨
      StringHolds f (s.reg 0#3) (s.setReg 7#3 s.pc) ∨ StringNeverEnds f (s.reg 0#3) (s.setReg 7#3 s.pc))

/-- A PUTS string that never reaches a zero word writes forever (R174, R226, I15): before a host that types a key other than
0 without end, with no zero word in ordinary storage, PUTS never completes (the model's fault, log 15), and after any number
of words its walk goes on and has written as many bytes. A PUTSP walk is never endless: it ends at the latest at KBSR_ADDR,
whose read has a zero low byte, unless it is aborted or held at KBDR_ADDR before (the walk's bridge reads are the spec's
decision D9, the zero low bits D5, log 23, 24). -/
def Obligations.PutsWithoutATerminatorNeverEnds : Prop :=
  (∀ (s : State) (k : Byte), s.term.script = [] → s.term.atEnd = .typing k → k ≠ 0x00#8 →
    (∀ a : Word, Ordinary a → s.mem.read a.toNat ≠ 0x0000#16) →
      exec .puts s = .fault .walkUnending ∧
      ∀ n, ∃ t, StringRounds putsFormat n (s.reg 0#3) (s.setReg 7#3 s.pc) t ∧
        t.term.output.length = s.term.output.length + n) ∧
  (∀ s : State, exec .putsp s ≠ .fault .walkUnending)


/-- The frame of TRAP and the six services (R22, R28, R45, R170, R171, R179, R213). Whenever one answers a next state, the output
has only grown and the script only been used, and either the whole is rolled back, or: no register but R7 and, for GETC and
IN, R0 has changed, COND only for GETC and IN, PC not; all of memory is as before, but for PUTS and PUTSP the low byte of the
keyboard data backing cell (log 14); and the status is as before, but for HALT and a vector with no service. PC and COND are
the spec's decisions D15 and D16 (log 18, 20), the fault D11 (log 21), the rollback D12 (log 22). -/
def Obligations.ServicesChangeNothingElse : Prop :=
  ∀ (s t : State) (i : Instr), i.opcode = .trap → exec i s = .next t →
    (∃ bs, t.term.output = s.term.output ++ bs) ∧ (∃ used, s.term.script = used ++ t.term.script) ∧
    t.term.atEnd = s.term.atEnd ∧ t.term.resumes = s.term.resumes ∧ t.params = s.params ∧
    ((∃ t', t = RolledBack s t') ∨
      ((∀ r, ¬ i.mayWriteReg r → t.reg r = s.reg r) ∧ (¬ i.mayWriteCond → t.cond = s.cond) ∧
        t.pc = s.pc ∧ t.reg 7#3 = s.pc ∧
        (if i = .puts ∨ i = .putsp ∨ i = .trap 0x22#8 ∨ i = .trap 0x24#8 then
          (∀ a : Word, a ≠ 0xFE02#16 → t.mem.read a.toNat = s.mem.read a.toNat) ∧
            (s.mem.wf = true → highByte (t.mem.read 0xFE02) = highByte (s.mem.read 0xFE02))
        else t.mem = s.mem) ∧
        (i = .halt ∨ i = .trap 0x25#8 → t.status = .halted) ∧
        (∀ v, i = .trap v → isServiceVector v = false → t.status = .faulted (.illegalTrap v) (s.pc - 1#16)) ∧
        (i ≠ .halt → (∀ v, i = .trap v → v ≠ 0x25#8 ∧ isServiceVector v = true) → t.status = s.status)))


/-! ### Waiting for the host -/

/-- Where the host cancels a keystroke read, or its stream has ended, the whole instruction is rolled back: registers, COND
and memory as before, PC the fetch address, status Aborted there; the output already written stays (R213, R77; the extent
of the rollback and the end of the stream are the spec's decision D12, log 8, 22; that polls stay taken is the model's
inference, log 11). -/
def Obligations.CancelledInputRollsTheInstructionBack : Prop :=
  ∀ (s : State) (dr baseR : RegField) (off9 : BitVec 9) (off6 : BitVec 6),
    (∀ t, ReadCancels s (s.pc + off9.signExtend 16) t →
      exec (.ld dr off9) s = .next (RolledBack s t) ∧ exec (.ldi dr off9) s = .next (RolledBack s t) ∧
      exec (.sti dr off9) s = .next (RolledBack s t)) ∧
    (∀ t, ReadCancels s (s.reg baseR + off6.signExtend 16) t → exec (.ldr dr baseR off6) s = .next (RolledBack s t)) ∧
    (∀ p u t, ReadsAs s (s.pc + off9.signExtend 16) p u → ReadCancels u p t →
      exec (.ldi dr off9) s = .next (RolledBack s t)) ∧
    (∀ rest, s.term.CancelsNext rest →
      exec .getc s = .next (RolledBack s (s.term.withScript rest)) ∧
      exec .inKey s = .next (RolledBack s
        { s.term with script := rest, output := s.term.output ++ s.params.inPrompt }))

/-- Where the host stays silent, an instruction that needs a keystroke is held: no step (R45, R226, I3; log 7). -/
def Obligations.SilentHostHoldsTheInstruction : Prop :=
  ∀ (s : State) (dr baseR : RegField) (off9 : BitVec 9) (off6 : BitVec 6),
    (ReadHolds s (s.pc + off9.signExtend 16) →
      exec (.ld dr off9) s = .fault .heldForKey ∧ exec (.ldi dr off9) s = .fault .heldForKey ∧
      exec (.sti dr off9) s = .fault .heldForKey) ∧
    (ReadHolds s (s.reg baseR + off6.signExtend 16) → exec (.ldr dr baseR off6) s = .fault .heldForKey) ∧
    (∀ p u, ReadsAs s (s.pc + off9.signExtend 16) p u → ReadHolds u p → exec (.ldi dr off9) s = .fault .heldForKey) ∧
    (s.term.StaysSilent → exec .getc s = .fault .heldForKey ∧ exec .inKey s = .fault .heldForKey)

/-! ### The execution loop -/

/-- A step from Running is the fetch of the word at PC, then the increment of PC, then `exec` of the instruction the word
decodes to, which so reads the incremented PC, the fetch address + 1 modulo 2^16 (R75, R76); as in the rule's example, JSR
#5 at 0x3000 leaves R7 = 0x3001 and PC = 0x3006. That the fetch reads through the bridge is the spec's decision D8 (log 23). -/
def Obligations.StepRunsTheDecodedInstruction : Prop :=
  (∀ (s u : State) (w : Word) (i : Instr), s.status = .running → ReadsAs s s.pc w u → decode w = i →
    step s = exec i { u with pc := s.pc + 1#16 } ∧ (s.pc + 1#16).toNat = (s.pc.toNat + 1) % 65536) ∧
  (∀ s : State, s.status = .running → s.pc = 0x3000#16 → s.mem.read 0x3000 = 0x4805#16 →
    ∃ t, step s = .next t ∧ t.reg 7#3 = 0x3001#16 ∧ t.pc = 0x3006#16)

/-- A fetch from KBDR_ADDR waits as a load does: a cancelled one leaves the core as before, Aborted at PC, and a silent host
holds the core (R75, R213, R217; D8, D12, log 7, 8, 22, 23). -/
def Obligations.FetchFromTheKeyboardCanAbortOrHold : Prop :=
  ∀ s : State, s.status = .running →
    (∀ t, ReadCancels s s.pc t → step s = .next { s with status := .aborted s.pc, term := t }) ∧
    (ReadHolds s s.pc → step s = .fault .heldForKey)

/-- At the step: a word with opcode 8 or 13 leaves PC = a + 1 and Faulted(IllegalOpcode, a, opcode); a TRAP word with a vector
outside 0x20 to 0x25 leaves R7 = PC = a + 1 and Faulted(IllegalTrap, a, vector); a is the address fetched from, and nothing
else changes (R211, R212; D11, log 21). -/
def Obligations.IllegalWordsFaultAtTheirFetchAddress : Prop :=
  ∀ (s u : State) (w : Word), s.status = .running → ReadsAs s s.pc w u →
    (w.extractLsb' 12 4 = 8#4 ∨ w.extractLsb' 12 4 = 13#4 → step s = .next
      { u with pc := s.pc + 1#16, status := .faulted (.illegalOpcode (w.extractLsb' 12 4)) s.pc }) ∧
    (w.extractLsb' 12 4 = 15#4 → (w.toNat % 256 < 0x20 ∨ 0x25 < w.toNat % 256) → step s = .next
      { u.setReg 7#3 (s.pc + 1#16) with
        pc := s.pc + 1#16, status := .faulted (.illegalTrap (w.extractLsb' 0 8)) s.pc })

/-- No step is taken from Halted or Faulted; from Aborted the next step is the host's resumption, which changes the status
to Running and nothing else of the core, or there is none (R30, R78, R213; the host's decision is a counter in State,
log 9). -/
def Obligations.NoStepAfterTheRunEnds : Prop :=
  ∀ s : State,
    (s.status = .halted ∨ (∃ c a, s.status = .faulted c a) → ∀ t, step s ≠ .next t) ∧
    (∀ a, s.status = .aborted a →
      (s.term.resumes = 0 → ∀ t, step s ≠ .next t) ∧
      (∀ n, s.term.resumes = n + 1 →
        step s = .next { s with status := .running, term := { s.term with resumes := n } }))

/-- A store is seen by the very next fetch (R56, R244): ST to the next instruction's address, then a step, runs the stored
word. -/
def Obligations.StoreIsSeenByTheNextFetch : Prop :=
  ∀ (s : State) (sr : RegField), s.status = .running → s.mem.wf = true → Ordinary s.pc → Ordinary (s.pc + 1#16) →
    decode (s.mem.read s.pc.toNat) = .st sr 0#9 →
      ∃ t, step s = .next t ∧ t.pc = s.pc + 1#16 ∧
        step t = exec (decode (s.reg sr)) { t with pc := s.pc + 2#16 }

/-- Every step keeps the invariant: memory canonical, the status in agreement with PC and R7, the exit statuses distinct and
non-zero (R31, R177, R211 to R213). What PC and R7 hold after a fault is the spec's decision D11 (log 21), PC after an abort
its D12 (log 22), R7 and PC after HALT its D24 (log 29); the canonical form is the model's (log 1). -/
def Obligations.StepKeepsTheInvariant : Prop :=
  ∀ s t : State, s.Inv → step s = .next t → t.Inv

/-- The state after reset satisfies the invariant (its exit statuses are the model's defaults, log 13). -/
def Obligations.ResetSatisfiesTheInvariant : Prop :=
  State.reset.Inv

/-- What reset leaves (R33 to R37, R240): every memory word 0, R0 to R7 0, PC 0x3000, COND Z, Running. The register values are
the spec's decisions D1 to D3 (log 2, 3). -/
def Obligations.ResetLeavesTheStatedValues : Prop :=
  (∀ a : Word, State.reset.mem.read a.toNat = 0x0000#16) ∧ (∀ r : RegField, State.reset.reg r = 0x0000#16) ∧
  State.reset.pc = 0x3000#16 ∧ State.reset.cond = .z ∧ State.reset.status = .running

/-- Every memory word is 0x0000 after reset, after which the loader writes the image (R36). What the load puts where is
R241's and is stated apart. -/
def Obligations.MemoryIsZeroAtReset : Prop :=
  (∀ a : Word, State.reset.mem.read a.toNat = 0x0000#16) ∧
  (∀ (bytes : List Byte) (origin : Word) (ws : List Word), imageWords bytes = some (origin :: ws) →
    boot (some bytes) = .running { State.reset with mem := loadWords origin.toNat ws State.reset.mem })

/-- A step that ends Aborted has had no effect on the core (R77, R213): registers, PC, COND and memory are as before its
fetch, the status names its fetch address, and the output has at most grown (D12, log 11, 22). -/
def Obligations.AbortedStepLeavesTheCoreAsBefore : Prop :=
  ∀ (s t : State) (a : Word), s.status = .running → step s = .next t → t.status = .aborted a →
    a = s.pc ∧ t.pc = s.pc ∧ t.regs = s.regs ∧ t.cond = s.cond ∧ t.mem = s.mem ∧ t.params = s.params ∧
    ∃ bs, t.term.output = s.term.output ++ bs

/-! ### Rules over all instructions -/

/-- COND is written only by ADD, AND, NOT, LD, LDR, LDI, LEA, GETC and IN; no other instruction changes it (R28; D16,
log 18). -/
def Obligations.OnlyTheListedInstructionsWriteCond : Prop :=
  ∀ (i : Instr) (s t : State), exec i s = .next t → ¬ i.mayWriteCond → t.cond = s.cond

/-- Each instruction writes only the general registers the table of R22 gives it. -/
def Obligations.OnlyTheListedInstructionsWriteEachRegister : Prop :=
  ∀ (i : Instr) (s t : State) (r : RegField), exec i s = .next t → ¬ i.mayWriteReg r → t.reg r = s.reg r

/-- Memory is written only by ST, STR and STI, and the low byte of the keyboard data backing cell by reads of KBDR (R31, R45,
R47; log 14). -/
def Obligations.OnlyStoresWriteMemory : Prop :=
  ∀ (i : Instr) (s t : State), exec i s = .next t → ¬ i.isStore →
    (∀ a : Word, a ≠ 0xFE02#16 → t.mem.read a.toNat = s.mem.read a.toNat) ∧
    (s.mem.wf = true → highByte (t.mem.read 0xFE02) = highByte (s.mem.read 0xFE02))

/-- PC is moved beyond the fetch increment only by BR, JSR, JSRR and JMP, and back to the fetch address by an aborted input
(R25, R213). That TRAP and its services leave PC is the spec's decision D15 (log 20), the way back its D12 (log 22). -/
def Obligations.OnlyControlTransfersMovePc : Prop :=
  ∀ (i : Instr) (s t : State), exec i s = .next t → ¬ i.movesPc →
    t.pc = s.pc ∨ (t.pc = s.pc - 1#16 ∧ t.status = .aborted (s.pc - 1#16) ∧ i.mayWait)

/-- The status (R30, R75, R78, R213): from Running the loop fetches a word and executes its instruction, and TRAP HALT enters
Halted; from Halted and Faulted no step is taken; from Aborted the host resumes to Running or ends the session. And no step
changes the status in another way: Halted is entered by TRAP HALT, Faulted by IllegalOpcode (opcodes 8 and 13) or
IllegalTrap (a vector with no service), and Aborted at the fetch address by a cancelled keystroke read, of the fetch or of an
instruction that can wait: the terminal is left as that read leaves it. The bridged fetch is the spec's decision D8 (log
23), the end of the stream as a cancellation and the address its D12 (log 8, 22); the host's decision is a counter in State
(log 9), and that keys and polls before the cancellation stay taken is the model's inference (log 11). -/
def Obligations.StatusChangesOnlyAsListed : Prop :=
  (∀ (s u : State) (w : Word), s.status = .running → ReadsAs s s.pc w u →
    step s = exec (decode w) { u with pc := s.pc + 1#16 } ∧
    (decode w = .halt → ∃ t, step s = .next t ∧ t.status = .halted)) ∧
  (∀ s : State, s.status = .halted ∨ (∃ c a, s.status = .faulted c a) → ∀ t, step s ≠ .next t) ∧
  (∀ (s : State) (a : Word), s.status = .aborted a →
    (∀ n, s.term.resumes = n + 1 → ∃ t, step s = .next t ∧ t.status = .running) ∧
    (s.term.resumes = 0 → ∀ t, step s ≠ .next t)) ∧
  (∀ s t : State, step s = .next t →
    ((∃ a, s.status = .aborted a) ∧ t.status = .running) ∨
    (s.status = .running ∧
      (t.status = .running ∨
        (∃ w u, ReadsAs s s.pc w u ∧
          ((t.status = .halted ∧ decode w = .halt) ∨
            (∃ op a, t.status = .faulted (.illegalOpcode op) a ∧ (op = 8#4 ∨ op = 13#4) ∧ w.extractLsb' 12 4 = op) ∨
            (∃ v a, t.status = .faulted (.illegalTrap v) a ∧ decode w = .trap v ∧ isServiceVector v = false))) ∨
        (t.status = .aborted s.pc ∧
          (ReadCancels s s.pc t.term ∨ ∃ w u, ReadsAs s s.pc w u ∧ (decode w).mayWait) ∧
          (KeyEvent.cancel ∈ s.term.script ∨ s.term.atEnd = .closed) ∧
          ∃ (x : Terminal) (r : List KeyEvent), (∃ used, s.term.script = used ++ x.script) ∧ x.atEnd = s.term.atEnd ∧
            x.CancelsNext r ∧ t.term = x.withScript r))))

/-- No instruction is refused, and there are two ways not to complete: held for a keystroke the host never supplies, and a PUTS
walk that never ends, which needs a host that types a key other than 0 without end and no zero word in ordinary storage. No
access, overflow or device write is a fault (R51, R174, R179, R215, R226, R246; the two stops are the model's faults, log 7,
15). -/
def Obligations.InstructionsStopOnlyWhenHeldOrEndless : Prop :=
  ∀ (i : Instr) (s : State),
    (∀ r, exec i s ≠ .refused r) ∧
    (∀ f, exec i s = .fault f →
      (f = .heldForKey ∧ i.mayWait ∧ s.term.atEnd = .silent ∧ KeyEvent.cancel ∉ s.term.script) ∨
      (f = .walkUnending ∧ (i = .puts ∨ i = .trap 0x22#8) ∧ (∃ k, s.term.atEnd = .typing k ∧ k ≠ 0x00#8) ∧
        ∀ a : Word, Ordinary a → s.mem.read a.toNat ≠ 0x0000#16))

/-- The terminal is reached only through the primitives (R11, R224): a step appends to the output and takes the host's answers
from the front of the script; it changes nothing the host has written or decided. -/
def Obligations.OutputIsOnlyAppendedTo : Prop :=
  ∀ s t : State, step s = .next t →
    (∃ bs, t.term.output = s.term.output ++ bs) ∧ (∃ used, s.term.script = used ++ t.term.script) ∧
    t.term.atEnd = s.term.atEnd ∧ t.term.resumes ≤ s.term.resumes ∧ t.params = s.params

/-! ### Loading and the session -/

/-- Loading puts the image's words at its origin and on, truncates them past 0xFFFF without wrapping, leaves every other word,
and keeps memory canonical (R58, R241; D21, log 26). -/
def Obligations.LoadPutsTheImageAtItsOrigin : Prop :=
  ∀ (m : Memory) (origin : Word) (ws : List Word), m.wf = true →
    (loadWords origin.toNat ws m).wf = true ∧
    ∀ a : Word, (loadWords origin.toNat ws m).read a.toNat =
      if h : origin.toNat ≤ a.toNat ∧ a.toNat - origin.toNat < ws.length then ws[a.toNat - origin.toNat]'h.2
      else m.read a.toNat

/-- An image is a sequence of big-endian words, and `byte_swap16` exchanges the bytes of a word (R48, R241). -/
def Obligations.ImageWordsAreBigEndian : Prop :=
  (∀ ws : List Word, imageWords (ws.flatMap fun w : Word => [(w >>> 8).setWidth 8, w.setWidth 8]) = some ws) ∧
  (∀ w : Word, (byteSwap16 w).toNat = w.toNat % 256 * 256 + w.toNat / 256)

/-- A session starts running at PC_START whatever the image's origin, with the reset registers and the image in memory; a
missing image is LoadFault and no run (R214, R240, R242; D1 to D3, log 2, 3). That an image of no words leaves the reset
state is the model's choice (log 26). -/
def Obligations.SessionStartsAtTheEntryPoint : Prop :=
  boot none = .loadFault ∧ boot (some []) = .running State.reset ∧
  ∀ (bytes : List Byte) (origin : Word) (ws : List Word), imageWords bytes = some (origin :: ws) →
    ∃ s, boot (some bytes) = .running s ∧ s.pc = 0x3000#16 ∧ s.cond = .z ∧ s.status = .running ∧ s.Inv ∧
      (∀ r : RegField, s.reg r = 0x0000#16) ∧
      ∀ a : Word, s.mem.read a.toNat =
        if h : origin.toNat ≤ a.toNat ∧ a.toNat - origin.toNat < ws.length then ws[a.toNat - origin.toNat]'h.2
        else 0x0000#16

/-- The process exit status: 0 for a halt and only then; for IllegalOpcode, IllegalTrap and a failed load their own
parameters, each non-zero and no two alike; none while a run has not ended, nor for an aborted session, whose status is the
host's own (R210, R225, R226). The values are the OPEN parameters (log 13). -/
def Obligations.ExitStatusesTellTheEndings : Prop :=
  ∀ s : State, s.params.Wf →
    (s.status = .running → s.exitStatus = none) ∧
    (∀ a, s.status = .aborted a → s.exitStatus = none) ∧
    (s.status = .halted ↔ s.exitStatus = some 0) ∧
    (∀ op a, s.status = .faulted (.illegalOpcode op) a → s.exitStatus = some s.params.exitIllegalOpcode) ∧
    (∀ v a, s.status = .faulted (.illegalTrap v) a → s.exitStatus = some s.params.exitIllegalTrap) ∧
    Boot.loadFault.exitStatus s.params = some s.params.exitLoadFault ∧
    (∀ t : State, (Boot.running t).exitStatus s.params = none) ∧
    s.params.exitIllegalOpcode ≠ 0 ∧ s.params.exitIllegalTrap ≠ 0 ∧ s.params.exitLoadFault ≠ 0 ∧
    (∀ e, s.exitStatus = some e → some e ≠ Boot.loadFault.exitStatus s.params) ∧
    (∀ t : State, t.params = s.params → ∀ op a v b, s.status = .faulted (.illegalOpcode op) a →
      t.status = .faulted (.illegalTrap v) b → s.exitStatus ≠ t.exitStatus)
end

