-- ==== Sys2Proof/Laws/Encoding.lean ====
section
/-! SUPPORT. What `field` and `place` do to one another: enough to read every field of an encoded word back. -/

namespace Sys2Proof

theorem field_or (lo n : Nat) (a b : Word) : field lo n (a ||| b) = field lo n a ||| field lo n b := by
  ext i hi
  simp [field]

theorem getLsbD_place (lo i : Nat) (v : BitVec n) :
    (place lo v).getLsbD i = (decide (i < 16) && decide (lo ≤ i) && v.getLsbD (i - lo)) := by
  by_cases h : i < 16 <;> by_cases h' : lo ≤ i <;> simp [place, h, h', show ¬ i < lo ↔ lo ≤ i by omega]

theorem field_place_same (lo : Nat) (v : BitVec n) (h : lo + n ≤ 16) : field lo n (place lo v) = v := by
  ext i hi
  simp only [field, BitVec.getElem_extractLsb', getLsbD_place]
  simp [show lo + i < 16 by omega, hi]

theorem field_place_disjoint (lo len lo' : Nat) (v : BitVec n) (h : lo + len ≤ lo' ∨ lo' + n ≤ lo) :
    field lo len (place lo' v) = 0#len := by
  ext i hi
  simp only [field, BitVec.getElem_extractLsb', getLsbD_place, BitVec.getElem_zero, Bool.and_eq_false_iff,
    decide_eq_false_iff_not]
  by_cases h' : lo' ≤ lo + i
  · exact .inr (BitVec.getLsbD_of_ge _ _ (by omega))
  · exact .inl (.inr h')

/-- A single bit is a field of width 1. -/
theorem getElem_eq_field (w : Word) (i : Nat) (h : i < 16) : w[i] = (field i 1 w)[0] := by
  simp [field, BitVec.getLsbD_eq_getElem, h]

/-- The opcode value and its number are two names of one thing (R66). -/
theorem Opcode.ofBits_bits (o : Opcode) : Opcode.ofBits o.bits = o := by cases o <;> rfl

theorem Opcode.bits_ofBits (b : BitVec 4) : (Opcode.ofBits b).bits = b := by
  revert b; decide

end Sys2Proof
end

