-- ==== Sys2Proof/Laws/State.lean ====
section
/-! SUPPORT. One lemma per field per update of State, and the register accessors, so that no proof unfolds an update. -/

namespace Sys2Proof.Machine

namespace State

/-! ### Registers -/

@[simp] theorem reg_setReg (s : State) (r q : RegField) (v : Word) :
    (s.setReg r v).reg q = if q = r then v else s.reg q := by
  simp only [setReg, reg, Vector.getElem_set, BitVec.toNat_inj, eq_comm]

theorem reg_setReg_same (s : State) (r : RegField) (v : Word) : (s.setReg r v).reg r = v := by simp

theorem reg_setReg_other (s : State) {r q : RegField} (v : Word) (h : q ≠ r) : (s.setReg r v).reg q = s.reg q := by
  simp [h]

/-- Two register files are equal when every field names equal registers. -/
theorem regs_ext {s t : State} (h : ∀ r, s.reg r = t.reg r) : s.regs = t.regs := by
  apply Vector.ext
  intro i hi
  simpa [reg, Nat.mod_eq_of_lt hi] using h (BitVec.ofNat 3 i)

/-- `reg` depends on the register file alone. -/
theorem reg_congr {s t : State} (h : s.regs = t.regs) (r : RegField) : s.reg r = t.reg r := by
  simp [reg, h]

/-! ### setReg -/

@[simp] theorem setReg_pc (s : State) (r : RegField) (v : Word) : (s.setReg r v).pc = s.pc := rfl

@[simp] theorem setReg_cond (s : State) (r : RegField) (v : Word) : (s.setReg r v).cond = s.cond := rfl

@[simp] theorem setReg_mem (s : State) (r : RegField) (v : Word) : (s.setReg r v).mem = s.mem := rfl

@[simp] theorem setReg_status (s : State) (r : RegField) (v : Word) : (s.setReg r v).status = s.status := rfl

@[simp] theorem setReg_term (s : State) (r : RegField) (v : Word) : (s.setReg r v).term = s.term := rfl

@[simp] theorem setReg_params (s : State) (r : RegField) (v : Word) : (s.setReg r v).params = s.params := rfl

/-! ### setcc -/

@[simp] theorem setcc_regs (s : State) (v : Word) : (s.setcc v).regs = s.regs := rfl

@[simp] theorem setcc_pc (s : State) (v : Word) : (s.setcc v).pc = s.pc := rfl

@[simp] theorem setcc_mem (s : State) (v : Word) : (s.setcc v).mem = s.mem := rfl

@[simp] theorem setcc_status (s : State) (v : Word) : (s.setcc v).status = s.status := rfl

@[simp] theorem setcc_term (s : State) (v : Word) : (s.setcc v).term = s.term := rfl

@[simp] theorem setcc_params (s : State) (v : Word) : (s.setcc v).params = s.params := rfl

@[simp] theorem setcc_cond (s : State) (v : Word) : (s.setcc v).cond = condOf v := rfl

@[simp] theorem reg_setcc (s : State) (v : Word) (q : RegField) : (s.setcc v).reg q = s.reg q := rfl

/-! ### writeResult -/

@[simp] theorem writeResult_pc (s : State) (r : RegField) (v : Word) : (s.writeResult r v).pc = s.pc := rfl

@[simp] theorem writeResult_mem (s : State) (r : RegField) (v : Word) : (s.writeResult r v).mem = s.mem := rfl

@[simp] theorem writeResult_status (s : State) (r : RegField) (v : Word) : (s.writeResult r v).status = s.status := rfl

@[simp] theorem writeResult_term (s : State) (r : RegField) (v : Word) : (s.writeResult r v).term = s.term := rfl

@[simp] theorem writeResult_params (s : State) (r : RegField) (v : Word) : (s.writeResult r v).params = s.params := rfl

@[simp] theorem writeResult_cond (s : State) (r : RegField) (v : Word) : (s.writeResult r v).cond = condOf v := rfl

/-! ### link -/

@[simp] theorem link_pc (s : State) : s.link.pc = s.pc := rfl

@[simp] theorem link_cond (s : State) : s.link.cond = s.cond := rfl

@[simp] theorem link_mem (s : State) : s.link.mem = s.mem := rfl

@[simp] theorem link_status (s : State) : s.link.status = s.status := rfl

@[simp] theorem link_term (s : State) : s.link.term = s.term := rfl

@[simp] theorem link_params (s : State) : s.link.params = s.params := rfl

/-! ### advance -/

@[simp] theorem advance_regs (s : State) : s.advance.regs = s.regs := rfl

@[simp] theorem advance_cond (s : State) : s.advance.cond = s.cond := rfl

@[simp] theorem advance_mem (s : State) : s.advance.mem = s.mem := rfl

@[simp] theorem advance_status (s : State) : s.advance.status = s.status := rfl

@[simp] theorem advance_term (s : State) : s.advance.term = s.term := rfl

@[simp] theorem advance_params (s : State) : s.advance.params = s.params := rfl

@[simp] theorem advance_pc (s : State) : s.advance.pc = s.pc + 1#16 := rfl

@[simp] theorem reg_advance (s : State) (q : RegField) : s.advance.reg q = s.reg q := rfl

/-! ### raise -/

@[simp] theorem raise_regs (s : State) (c : FaultCause) : (s.raise c).regs = s.regs := rfl

@[simp] theorem raise_pc (s : State) (c : FaultCause) : (s.raise c).pc = s.pc := rfl

@[simp] theorem raise_cond (s : State) (c : FaultCause) : (s.raise c).cond = s.cond := rfl

@[simp] theorem raise_mem (s : State) (c : FaultCause) : (s.raise c).mem = s.mem := rfl

@[simp] theorem raise_term (s : State) (c : FaultCause) : (s.raise c).term = s.term := rfl

@[simp] theorem raise_params (s : State) (c : FaultCause) : (s.raise c).params = s.params := rfl

@[simp] theorem raise_status (s : State) (c : FaultCause) : (s.raise c).status = .faulted c s.fetchAddr := rfl

@[simp] theorem reg_raise (s : State) (c : FaultCause) (q : RegField) : (s.raise c).reg q = s.reg q := rfl

/-! ### abort -/

@[simp] theorem abort_regs (s : State) (t : Terminal) : (s.abort t).regs = s.regs := rfl

@[simp] theorem abort_cond (s : State) (t : Terminal) : (s.abort t).cond = s.cond := rfl

@[simp] theorem abort_mem (s : State) (t : Terminal) : (s.abort t).mem = s.mem := rfl

@[simp] theorem abort_params (s : State) (t : Terminal) : (s.abort t).params = s.params := rfl

@[simp] theorem abort_pc (s : State) (t : Terminal) : (s.abort t).pc = s.fetchAddr := rfl

@[simp] theorem abort_status (s : State) (t : Terminal) : (s.abort t).status = .aborted s.fetchAddr := rfl

@[simp] theorem abort_term (s : State) (t : Terminal) : (s.abort t).term = t := rfl

@[simp] theorem reg_abort (s : State) (t : Terminal) (q : RegField) : (s.abort t).reg q = s.reg q := rfl

/-! ### storeBackingCell -/

@[simp] theorem storeBackingCell_regs (s : State) (b : Byte) : (s.storeBackingCell b).regs = s.regs := rfl

@[simp] theorem storeBackingCell_pc (s : State) (b : Byte) : (s.storeBackingCell b).pc = s.pc := rfl

@[simp] theorem storeBackingCell_cond (s : State) (b : Byte) : (s.storeBackingCell b).cond = s.cond := rfl

@[simp] theorem storeBackingCell_status (s : State) (b : Byte) : (s.storeBackingCell b).status = s.status := rfl

@[simp] theorem storeBackingCell_term (s : State) (b : Byte) : (s.storeBackingCell b).term = s.term := rfl

@[simp] theorem storeBackingCell_params (s : State) (b : Byte) : (s.storeBackingCell b).params = s.params := rfl

@[simp] theorem reg_storeBackingCell (s : State) (b : Byte) (q : RegField) : (s.storeBackingCell b).reg q = s.reg q := rfl

@[simp] theorem reg_writeResult (s : State) (r q : RegField) (v : Word) :
    (s.writeResult r v).reg q = if q = r then v else s.reg q := reg_setReg s r q v

@[simp] theorem reg_link (s : State) (q : RegField) :
    s.link.reg q = if q = linkReg then s.pc else s.reg q := reg_setReg s linkReg q s.pc

/-! ### memWrite -/

@[simp] theorem memWrite_regs (s : State) (a v : Word) : (s.memWrite a v).regs = s.regs := by
  unfold memWrite; split <;> rfl

@[simp] theorem memWrite_pc (s : State) (a v : Word) : (s.memWrite a v).pc = s.pc := by
  unfold memWrite; split <;> rfl

@[simp] theorem memWrite_cond (s : State) (a v : Word) : (s.memWrite a v).cond = s.cond := by
  unfold memWrite; split <;> rfl

@[simp] theorem memWrite_status (s : State) (a v : Word) : (s.memWrite a v).status = s.status := by
  unfold memWrite; split <;> rfl

@[simp] theorem memWrite_term (s : State) (a v : Word) : (s.memWrite a v).term = s.term := by
  unfold memWrite; split <;> rfl

@[simp] theorem memWrite_params (s : State) (a v : Word) : (s.memWrite a v).params = s.params := by
  unfold memWrite; split <;> rfl

@[simp] theorem reg_memWrite (s : State) (a v : Word) (q : RegField) : (s.memWrite a v).reg q = s.reg q :=
  reg_congr (memWrite_regs s a v) q

/-! ### The fetch address -/

theorem fetchAddr_advance (s : State) : s.advance.fetchAddr = s.pc := by
  simp only [fetchAddr, advance_pc]; bv_omega

theorem pc_eq_fetchAddr_succ (s : State) : s.pc = s.fetchAddr + 1#16 := by
  simp only [fetchAddr]; bv_omega

end State

end Sys2Proof.Machine
end

