-- ==== Sys2Proof/Laws/Memory.lean ====
section
/-! SUPPORT. Memory: a read after a write, and that every memory operation keeps the canonical form. -/

namespace Sys2Proof.Machine

namespace Memory

/-- The canonical form from a higher address on is one from any lower address on. -/
theorem wfFrom_mono {m : Memory} {lo lo' : Nat} (h : lo' ≤ lo) (hm : wfFrom lo m = true) : wfFrom lo' m = true := by
  cases m with
  | nil => rfl
  | cons c m =>
    simp only [wfFrom, Bool.and_eq_true, decide_eq_true_eq] at hm ⊢
    exact ⟨⟨⟨by omega, hm.1.1.2⟩, hm.1.2⟩, hm.2⟩

/-- An address below the canonical form is unlisted. -/
theorem read_below {m : Memory} {lo a : Nat} (hm : wfFrom lo m = true) (ha : a < lo) : read m a = Config.memReset := by
  induction m generalizing lo with
  | nil => rfl
  | cons c m ih =>
    simp only [wfFrom, Bool.and_eq_true, decide_eq_true_eq] at hm
    rw [read, if_neg (by omega)]
    exact ih hm.2 (by omega)

theorem read_cons {m : Memory} {a : Nat} (v : Word) (hm : wfFrom (a + 1) m = true) (b : Nat) :
    read (Memory.cons a v m) b = if b = a then v else read m b := by
  unfold Memory.cons
  split
  next h =>
    split
    next hb => rw [hb, read_below hm (by omega), h]
    next => rfl
  next => simp only [read, eq_comm]

theorem wfFrom_cons {m : Memory} {lo a : Nat} (v : Word) (hm : wfFrom (a + 1) m = true) (hlo : lo ≤ a)
    (ha : a < 65536) : wfFrom lo (Memory.cons a v m) = true := by
  unfold Memory.cons
  split
  next => exact wfFrom_mono (by omega) hm
  next h => simp [wfFrom, hlo, ha, h, hm]

/-- A write keeps the canonical form. -/
theorem wfFrom_write {m : Memory} {lo a : Nat} (v : Word) (hm : wfFrom lo m = true) (hlo : lo ≤ a)
    (ha : a < 65536) : wfFrom lo (write m a v) = true := by
  induction m generalizing lo with
  | nil => exact wfFrom_cons v rfl hlo ha
  | cons c m ih =>
    obtain ⟨k, w⟩ := c
    have h := hm
    simp only [wfFrom, Bool.and_eq_true, decide_eq_true_eq] at h
    simp only [write]
    split
    next hk =>
      refine wfFrom_cons v ?_ hlo ha
      simp [wfFrom, h, Nat.succ_le_of_lt hk]
    next =>
      split
      next hk => exact wfFrom_cons v (hk ▸ h.2) hlo ha
      next =>
        simp only [wfFrom, Bool.and_eq_true, decide_eq_true_eq]
        exact ⟨h.1, ih h.2 (by omega)⟩

theorem wf_write {m : Memory} {a : Nat} (v : Word) (hm : wf m = true) (ha : a < 65536) : wf (write m a v) = true :=
  wfFrom_write v hm (Nat.zero_le a) ha

/-- The written address of a canonical memory holds the value. -/
theorem read_write_same {m : Memory} {lo : Nat} (a : Nat) (v : Word) (hm : wfFrom lo m = true) :
    read (write m a v) a = v := by
  induction m generalizing lo with
  | nil => simp [write, read_cons v (m := []) rfl]
  | cons c m ih =>
    obtain ⟨k, w⟩ := c
    have h := hm
    simp only [wfFrom, Bool.and_eq_true, decide_eq_true_eq] at h
    simp only [write]
    split
    next hk =>
      rw [read_cons v (by simp [wfFrom, h, Nat.succ_le_of_lt hk]), if_pos rfl]
    next =>
      split
      next hk => rw [read_cons v (hk ▸ h.2), if_pos rfl]
      next hk => rw [read, if_neg (by omega), ih h.2]

/-- Every other address of any memory, canonical or not, reads as before. -/
theorem read_write_other (m : Memory) {a b : Nat} (v : Word) (hb : b ≠ a) : read (write m a v) b = read m b := by
  have hc (m : Memory) : read (Memory.cons a v m) b = read m b := by
    unfold Memory.cons
    split
    next => rfl
    next => rw [read, if_neg (Ne.symm hb)]
  induction m with
  | nil => exact hc []
  | cons c m ih =>
    obtain ⟨k, w⟩ := c
    simp only [write]
    split
    next => exact hc _
    next =>
      split
      next hk => rw [hc, read, if_neg (by omega)]
      next => simp only [read, ih]

/-- Read after write, for a canonical memory. -/
theorem read_write {m : Memory} (a b : Nat) (v : Word) (hm : wf m = true) :
    read (write m a v) b = if b = a then v else read m b := by
  split
  next h => exact h ▸ read_write_same b v hm
  next h => exact read_write_other m v h

theorem wf_nil : wf [] = true := rfl

end Memory

end Sys2Proof.Machine
end

