-- ==== Sys2Proof/Laws/Operands.lean ====
section
/-! SUPPORT. Bytes and words, and what the shared updates `setcc`, `writeResult` and `link` do, in the terms of Safety.lean. -/

namespace Sys2Proof.Machine

theorem highByte_wordOf (hi lo : Byte) : highByte (wordOf hi lo) = hi := by
  apply BitVec.eq_of_getLsbD_eq
  intro i h
  have := BitVec.getLsbD_append (x := hi) (y := lo) (i := 8 + i)
  simp only [highByte, BitVec.getLsbD_extractLsb', h, decide_true, Bool.true_and]
  exact this.trans (by simp)

theorem lowByte_wordOf (hi lo : Byte) : lowByte (wordOf hi lo) = lo := by
  apply BitVec.eq_of_getLsbD_eq
  intro i h
  have := BitVec.getLsbD_append (x := hi) (y := lo) (i := 0 + i)
  simp only [lowByte, BitVec.getLsbD_extractLsb', h, decide_true, Bool.true_and]
  exact this.trans (by simp [h])

/-- A zero-extended byte is the word with a zero high byte (R45). -/
theorem zext_eq_wordOf (b : Byte) : zext b = wordOf 0x00#8 b := by revert b; decide

/-- A keystroke's flag is never N (R172). -/
theorem condOf_zext (b : Byte) : condOf (zext b) = if b = 0x00#8 then .z else .p := by revert b; decide

/-- The flag of a value, by its number (R27). -/
theorem condOf_flagFor (v : Word) : FlagFor v (condOf v) := by
  have hm : v[15] = decide (32768 ≤ v.toNat) := by
    rw [← BitVec.msb_eq_decide v, BitVec.msb_eq_getMsbD_zero]
    simp [BitVec.getMsbD_eq_getLsbD, BitVec.getLsbD_eq_getElem]
  unfold FlagFor condOf
  split
  next h => exact .inl ⟨by simp [h], rfl⟩
  next h =>
    have h0 : v.toNat ≠ 0 := fun e => h (BitVec.eq_of_toNat_eq e)
    split
    next hn => exact .inr (.inl ⟨by simpa [hm] using hn, rfl⟩)
    next hn => exact .inr (.inr ⟨by omega, by simpa [hm] using hn, rfl⟩)

/-- Writing a result register is what `ResultWritten` says. -/
theorem writeResult_spec (s : State) (dr : RegField) (v : Word) : ResultWritten dr v s (s.writeResult dr v) where
  result := by simp
  flag := condOf_flagFor v
  regs r h := by simp [h]
  pc := rfl
  mem := rfl
  status := rfl
  term := rfl
  params := rfl

/-- The link write, with PC anywhere, is what `Linked` says. -/
theorem link_spec (s : State) (a : Word) : Linked s { s.link with pc := a } where
  link := by show s.link.reg 7#3 = s.pc; simp [linkReg]
  regs r h := by show s.link.reg r = s.reg r; simp [linkReg, h]
  cond := rfl
  mem := rfl
  status := rfl
  term := rfl
  params := rfl

/-- A sign-extended offset added to a word, as a number modulo 2^16 (R8, R9). -/
theorem toNat_add_sext (a : Word) (v : BitVec n) : ((a + sext v).toNat : Int) = (a.toNat + v.toInt) % 65536 := by
  have h : sext v = BitVec.ofInt 16 v.toInt := rfl
  rw [h, BitVec.toNat_add, BitVec.toNat_ofInt]
  omega

end Sys2Proof.Machine
end

