-- ==== Sys2Proof/Laws/Ops.lean ====
section
/-! SUPPORT. One lemma for each shared operation that says everything it can do: the bridged reads, `andThen`, the string
walk, the trap entry and the fetch. Later proofs cite these and do not unfold the operations. -/

namespace Sys2Proof.Machine

/-! ### andThen -/

@[simp] theorem andThen_value (s : State) (v : α) (t : State) (k : α → State → Result) :
    andThen s (.value v t) k = k v t := rfl

@[simp] theorem andThen_cancelled (s : State) (t : Terminal) (k : α → State → Result) :
    andThen s (.cancelled t) k = .next (s.abort t) := rfl

@[simp] theorem andThen_held (s : State) (k : α → State → Result) :
    andThen s .held k = .fault .heldForKey := rfl

/-- If `andThen` answers a next state, the read gave a value and the rest ran, or it was cancelled and the instruction is
rolled back. -/
theorem andThen_next {s u : State} {r : Read α} {k : α → State → Result} (h : andThen s r k = .next u) :
    (∃ v t, r = .value v t ∧ k v t = .next u) ∨ (∃ t, r = .cancelled t ∧ u = s.abort t) := by
  cases r with
  | value v t => exact .inl ⟨v, t, rfl, h⟩
  | cancelled t => exact .inr ⟨t, rfl, (Host.Outcome.next.inj h).symm⟩
  | held => cases h

/-- If `andThen` stops, the host stays silent or the rest stopped. -/
theorem andThen_fault {s : State} {r : Read α} {k : α → State → Result} {f : Fault} (h : andThen s r k = .fault f) :
    (∃ v t, r = .value v t ∧ k v t = .fault f) ∨ (r = .held ∧ f = .heldForKey) := by
  cases r with
  | value v t => exact .inl ⟨v, t, rfl, h⟩
  | cancelled t => cases h
  | held => exact .inr ⟨rfl, (Host.Outcome.fault.inj h).symm⟩

/-! ### The terminal -/

/-- A poll answers yes with a key in front or an endless supply at the end, and otherwise no; it takes at most a leading
`quiet` (R44). -/
theorem keyAvail_cases (t : Terminal) :
    (∃ k r, t.script = .key k :: r ∧ t.keyAvail = (true, t)) ∨
    (∃ r, t.script = .quiet :: r ∧ t.keyAvail = (false, t.withScript r)) ∨
    (∃ r, t.script = .cancel :: r ∧ t.keyAvail = (false, t)) ∨
    (t.script = [] ∧ t.keyAvail = (t.atEnd.hasKey, t)) := by
  rcases h : t.script with _ | ⟨e, r⟩
  · simp [Terminal.keyAvail, h]
  · cases e <;> simp [Terminal.keyAvail, Terminal.withScript, h]

theorem nextKey_quiet (e : ScriptEnd) (n : Nat) (l : List KeyEvent) :
    nextKey e (List.replicate n .quiet ++ l) = nextKey e l := by
  induction n with
  | zero => rfl
  | succ n ih => simpa [List.replicate_succ, nextKey] using ih

/-- A keystroke read gives the next key exactly where the script has one next. -/
theorem readKey_key {t : Terminal} {k : Byte} {r : List KeyEvent} : t.readKey = .key k r ↔ t.NextKeyIs k r := by
  unfold Terminal.readKey Terminal.NextKeyIs
  constructor
  · generalize t.script = l
    intro h
    induction l with
    | nil =>
      cases he : t.atEnd <;> simp only [nextKey, he, reduceCtorEq, KeyAnswer.key.injEq] at h
      exact ⟨0, .inr ⟨rfl, by rw [h.1], h.2.symm⟩⟩
    | cons e l ih =>
      cases e with
      | key b =>
        simp only [nextKey, KeyAnswer.key.injEq] at h
        exact ⟨0, .inl (by simp [h])⟩
      | quiet =>
        obtain ⟨n, hn | ⟨hn, h1, h2⟩⟩ := ih h
        · exact ⟨n + 1, .inl (by simp [List.replicate_succ, hn])⟩
        · exact ⟨n + 1, .inr ⟨by simp [List.replicate_succ, hn], h1, h2⟩⟩
      | cancel => simp [nextKey] at h
  · rintro ⟨n, h | ⟨h, he, rfl⟩⟩
    · rw [h, nextKey_quiet]; rfl
    · rw [h, ← List.append_nil (List.replicate n _), nextKey_quiet, he]; rfl

/-- A keystroke read is cancelled exactly where the host cancels next or the stream has ended. -/
theorem readKey_cancelled {t : Terminal} {r : List KeyEvent} : t.readKey = .cancelled r ↔ t.CancelsNext r := by
  unfold Terminal.readKey Terminal.CancelsNext
  constructor
  · generalize t.script = l
    intro h
    induction l with
    | nil =>
      cases he : t.atEnd <;> simp only [nextKey, he, reduceCtorEq, KeyAnswer.cancelled.injEq] at h
      exact ⟨0, .inr ⟨rfl, rfl, h.symm⟩⟩
    | cons e l ih =>
      cases e with
      | key b => simp [nextKey] at h
      | quiet =>
        obtain ⟨n, hn | ⟨hn, h1, h2⟩⟩ := ih h
        · exact ⟨n + 1, .inl (by simp [List.replicate_succ, hn])⟩
        · exact ⟨n + 1, .inr ⟨by simp [List.replicate_succ, hn], h1, h2⟩⟩
      | cancel =>
        simp only [nextKey, KeyAnswer.cancelled.injEq] at h
        exact ⟨0, .inl (by simp [h])⟩
  · rintro ⟨n, h | ⟨h, he, rfl⟩⟩
    · rw [h, nextKey_quiet]; rfl
    · rw [h, ← List.append_nil (List.replicate n _), nextKey_quiet, he]; rfl

/-- A keystroke read has no answer exactly where the host stays silent. -/
theorem readKey_never {t : Terminal} : t.readKey = .never ↔ t.StaysSilent := by
  unfold Terminal.readKey Terminal.StaysSilent
  constructor
  · generalize t.script = l
    intro h
    induction l with
    | nil =>
      cases he : t.atEnd <;> simp [nextKey, he] at h
      exact ⟨rfl, 0, rfl⟩
    | cons e l ih =>
      cases e with
      | key b => simp [nextKey] at h
      | quiet =>
        obtain ⟨h1, n, hn⟩ := ih h
        exact ⟨h1, n + 1, by simp [List.replicate_succ, hn]⟩
      | cancel => simp [nextKey] at h
  · rintro ⟨he, n, h⟩
    rw [h, ← List.append_nil (List.replicate n _), nextKey_quiet, he]; rfl

/-- What a keystroke read in a state gives, in the three cases. -/
theorem state_readKey_cases (s : State) :
    (∃ k r, s.term.NextKeyIs k r ∧ s.readKey = .value k (s.withScript r)) ∨
    (∃ r, s.term.CancelsNext r ∧ s.readKey = .cancelled (s.term.withScript r)) ∨
    (s.term.StaysSilent ∧ s.readKey = .held) := by
  unfold State.readKey
  cases h : s.term.readKey with
  | key b r => exact .inl ⟨b, r, readKey_key.mp h, rfl⟩
  | cancelled r => exact .inr (.inl ⟨r, readKey_cancelled.mp h, rfl⟩)
  | never => exact .inr (.inr ⟨readKey_never.mp h, rfl⟩)

/-! ### Bridged reads -/

/-- A read that gives a value changes no register, PC, COND, status, output or parameter, and of memory only the keyboard
data backing cell. -/
structure ReadFrame (s u : State) : Prop where
  regs : u.regs = s.regs
  pc : u.pc = s.pc
  cond : u.cond = s.cond
  status : u.status = s.status
  params : u.params = s.params
  output : u.term.output = s.term.output
  atEnd : u.term.atEnd = s.term.atEnd
  resumes : u.term.resumes = s.term.resumes
  mem : ∀ b, b ≠ Config.kbdrAddr.toNat → u.mem.read b = s.mem.read b
  memWf : s.mem.wf = true → u.mem.wf = true

theorem ReadFrame.refl (s : State) : ReadFrame s s :=
  ⟨rfl, rfl, rfl, rfl, rfl, rfl, rfl, rfl, fun _ _ => rfl, id⟩

theorem ReadFrame.trans {s t u : State} (h : ReadFrame s t) (h' : ReadFrame t u) : ReadFrame s u :=
  ⟨h'.regs.trans h.regs, h'.pc.trans h.pc, h'.cond.trans h.cond, h'.status.trans h.status,
    h'.params.trans h.params, h'.output.trans h.output, h'.atEnd.trans h.atEnd, h'.resumes.trans h.resumes,
    fun b hb => (h'.mem b hb).trans (h.mem b hb), h'.memWf ∘ h.memWf⟩

theorem ReadFrame.withScript (s : State) (r : List KeyEvent) : ReadFrame s (s.withScript r) :=
  ⟨rfl, rfl, rfl, rfl, rfl, rfl, rfl, rfl, fun _ _ => rfl, id⟩

theorem ReadFrame.storeBackingCell (s : State) (b : Byte) : ReadFrame s (s.storeBackingCell b) :=
  ⟨rfl, rfl, rfl, rfl, rfl, rfl, rfl, rfl, fun _ ha => Memory.read_write_other _ _ ha,
    fun h => Memory.wf_write _ h (by decide)⟩

theorem readKey_frame {s u : State} {k : Byte} (h : s.readKey = .value k u) : ReadFrame s u := by
  obtain ⟨k', r, -, hr⟩ | ⟨r, -, hr⟩ | ⟨-, hr⟩ := state_readKey_cases s <;> rw [hr] at h
  · obtain ⟨-, rfl⟩ := Read.value.inj h
    exact .withScript s r
  · cases h
  · cases h

theorem kbsrRead_frame {s u : State} {v : Word} (h : s.kbsrRead = .value v u) : ReadFrame s u := by
  unfold State.kbsrRead at h
  obtain ⟨_, _, _, hk⟩ | ⟨r, _, hk⟩ | ⟨_, _, hk⟩ | ⟨_, hk⟩ := keyAvail_cases s.term <;>
    (rw [hk] at h; obtain ⟨-, rfl⟩ := Read.value.inj h)
  · exact .refl s
  · exact .withScript s r
  · exact .refl s
  · exact .refl s

theorem memRead_frame {s u : State} {a v : Word} (h : s.memRead a = .value v u) : ReadFrame s u := by
  unfold State.memRead at h
  split at h
  · exact kbsrRead_frame h
  · split at h
    · unfold State.kbdrRead at h
      split at h
      next k t hk =>
        obtain ⟨-, rfl⟩ := Read.value.inj h
        exact (readKey_frame hk).trans (.storeBackingCell t k)
      next => cases h
      next => cases h
    · obtain ⟨-, rfl⟩ := Read.value.inj h
      exact .refl s

/-! ### The string walk -/

/-- What a walk that has taken state `s` to `u` may have changed: what a read may, and the output, which has grown. -/
structure WalkFrame (s u : State) : Prop where
  regs : u.regs = s.regs
  pc : u.pc = s.pc
  cond : u.cond = s.cond
  status : u.status = s.status
  params : u.params = s.params
  output : ∃ bs, u.term.output = s.term.output ++ bs
  mem : ∀ b, b ≠ Config.kbdrAddr.toNat → u.mem.read b = s.mem.read b
  memWf : s.mem.wf = true → u.mem.wf = true

theorem ReadFrame.walk {s u : State} (h : ReadFrame s u) : WalkFrame s u :=
  ⟨h.regs, h.pc, h.cond, h.status, h.params, ⟨[], by simp [h.output]⟩, h.mem, h.memWf⟩

theorem walk_frame (emit : Word → Option (List Byte)) (fuel : Nat) {p : Word} {s u : State}
    (h : walk emit fuel p s = some (.value () u)) : WalkFrame s u := by
  induction fuel generalizing p s with
  | zero => cases h
  | succ n ih =>
    unfold walk at h
    split at h
    next w t hr =>
      have hf := memRead_frame hr
      split at h
      · obtain ⟨-, rfl⟩ := Read.value.inj (Option.some.inj h)
        exact hf.walk
      next bs _ =>
        have hw := ih h
        obtain ⟨cs, hcs⟩ := hw.output
        refine ⟨hw.regs.trans hf.regs, hw.pc.trans hf.pc, hw.cond.trans hf.cond, hw.status.trans hf.status,
          hw.params.trans hf.params, ⟨bs ++ cs, ?_⟩, fun b hb => (hw.mem b hb).trans (hf.mem b hb),
          hw.memWf ∘ hf.memWf⟩
        simp [hcs, Terminal.outAll, hf.output, List.append_assoc]
    next => cases h
    next => cases h

/-! ### Stores -/

theorem memWrite_memWf {s : State} (a v : Word) (h : s.mem.wf = true) : (s.memWrite a v).mem.wf = true := by
  unfold State.memWrite
  split
  · exact h
  · exact Memory.wf_write v h a.isLt

/-- A store changes the byte-free cell it names and no other (R46). -/
theorem read_memWrite_other (s : State) {a : Word} (v : Word) {b : Nat} (hb : b ≠ a.toNat) :
    (s.memWrite a v).mem.read b = s.mem.read b := by
  unfold State.memWrite
  split
  · rfl
  · exact Memory.read_write_other _ _ hb

theorem read_memWrite_same {s : State} (a v : Word) (h : s.mem.wf = true) :
    (s.memWrite a v).mem.read a.toNat = if isDevice a then s.mem.read a.toNat else v := by
  unfold State.memWrite
  split
  · rfl
  · exact Memory.read_write_same _ _ h

end Sys2Proof.Machine
end

