-- ==== Sys2Proof/Laws/PerInstr.lean ====
section
/-! SUPPORT. Laws made per instruction. OpcodeField: the encoder puts the opcode of R66 in bits 15:12 (R61, R62). -/

namespace Sys2Proof

/-- The word of `i` has `i`'s opcode number in bits 15:12. -/
def Laws.OpcodeField.Statement (i : Instr) : Prop := opField (encode i) = i.opcode.bits

theorem Laws.OpcodeField.br (n z p : Bool) (o : BitVec 9) : Laws.OpcodeField.Statement (.br n z p o) := by
  simp (disch := omega) only [Statement, opField, encode, Instr.opcode, field_or, field_place_same,
    field_place_disjoint, BitVec.or_zero]

theorem Laws.OpcodeField.addReg (d s t : RegField) : Laws.OpcodeField.Statement (.addReg d s t) := by
  simp (disch := omega) only [Statement, opField, encode, Instr.opcode, field_or, field_place_same,
    field_place_disjoint, BitVec.or_zero]

theorem Laws.OpcodeField.addImm (d s : RegField) (i : BitVec 5) : Laws.OpcodeField.Statement (.addImm d s i) := by
  simp (disch := omega) only [Statement, opField, encode, Instr.opcode, field_or, field_place_same,
    field_place_disjoint, BitVec.or_zero]

theorem Laws.OpcodeField.ld (d : RegField) (o : BitVec 9) : Laws.OpcodeField.Statement (.ld d o) := by
  simp (disch := omega) only [Statement, opField, encode, Instr.opcode, field_or, field_place_same,
    field_place_disjoint, BitVec.or_zero]

theorem Laws.OpcodeField.st (d : RegField) (o : BitVec 9) : Laws.OpcodeField.Statement (.st d o) := by
  simp (disch := omega) only [Statement, opField, encode, Instr.opcode, field_or, field_place_same,
    field_place_disjoint, BitVec.or_zero]

theorem Laws.OpcodeField.jsr (o : BitVec 11) : Laws.OpcodeField.Statement (.jsr o) := by
  simp (disch := omega) only [Statement, opField, encode, Instr.opcode, field_or, field_place_same,
    field_place_disjoint, BitVec.or_zero]

theorem Laws.OpcodeField.jsrr (b : RegField) : Laws.OpcodeField.Statement (.jsrr b) := by
  simp (disch := omega) only [Statement, opField, encode, Instr.opcode, field_or, field_place_same,
    field_place_disjoint, BitVec.or_zero]

theorem Laws.OpcodeField.andReg (d s t : RegField) : Laws.OpcodeField.Statement (.andReg d s t) := by
  simp (disch := omega) only [Statement, opField, encode, Instr.opcode, field_or, field_place_same,
    field_place_disjoint, BitVec.or_zero]

theorem Laws.OpcodeField.andImm (d s : RegField) (i : BitVec 5) : Laws.OpcodeField.Statement (.andImm d s i) := by
  simp (disch := omega) only [Statement, opField, encode, Instr.opcode, field_or, field_place_same,
    field_place_disjoint, BitVec.or_zero]

theorem Laws.OpcodeField.ldr (d b : RegField) (o : BitVec 6) : Laws.OpcodeField.Statement (.ldr d b o) := by
  simp (disch := omega) only [Statement, opField, encode, Instr.opcode, field_or, field_place_same,
    field_place_disjoint, BitVec.or_zero]

theorem Laws.OpcodeField.str (d b : RegField) (o : BitVec 6) : Laws.OpcodeField.Statement (.str d b o) := by
  simp (disch := omega) only [Statement, opField, encode, Instr.opcode, field_or, field_place_same,
    field_place_disjoint, BitVec.or_zero]

theorem Laws.OpcodeField.rti : Laws.OpcodeField.Statement .rti := by
  rfl

theorem Laws.OpcodeField.not (d s : RegField) : Laws.OpcodeField.Statement (.not d s) := by
  simp (disch := omega) only [Statement, opField, encode, Instr.opcode, field_or, field_place_same,
    field_place_disjoint, BitVec.or_zero]

theorem Laws.OpcodeField.ldi (d : RegField) (o : BitVec 9) : Laws.OpcodeField.Statement (.ldi d o) := by
  simp (disch := omega) only [Statement, opField, encode, Instr.opcode, field_or, field_place_same,
    field_place_disjoint, BitVec.or_zero]

theorem Laws.OpcodeField.sti (d : RegField) (o : BitVec 9) : Laws.OpcodeField.Statement (.sti d o) := by
  simp (disch := omega) only [Statement, opField, encode, Instr.opcode, field_or, field_place_same,
    field_place_disjoint, BitVec.or_zero]

theorem Laws.OpcodeField.jmp (b : RegField) : Laws.OpcodeField.Statement (.jmp b) := by
  simp (disch := omega) only [Statement, opField, encode, Instr.opcode, field_or, field_place_same,
    field_place_disjoint, BitVec.or_zero]

theorem Laws.OpcodeField.reserved : Laws.OpcodeField.Statement .reserved := by
  rfl

theorem Laws.OpcodeField.lea (d : RegField) (o : BitVec 9) : Laws.OpcodeField.Statement (.lea d o) := by
  simp (disch := omega) only [Statement, opField, encode, Instr.opcode, field_or, field_place_same,
    field_place_disjoint, BitVec.or_zero]

theorem Laws.OpcodeField.trap (v : BitVec 8) : Laws.OpcodeField.Statement (.trap v) := by
  simp (disch := omega) only [Statement, opField, encode, Instr.opcode, field_or, field_place_same,
    field_place_disjoint, BitVec.or_zero]

theorem Laws.OpcodeField.getc : Laws.OpcodeField.Statement .getc := by
  rfl

theorem Laws.OpcodeField.out : Laws.OpcodeField.Statement .out := by
  rfl

theorem Laws.OpcodeField.puts : Laws.OpcodeField.Statement .puts := by
  rfl

theorem Laws.OpcodeField.inKey : Laws.OpcodeField.Statement .inKey := by
  rfl

theorem Laws.OpcodeField.putsp : Laws.OpcodeField.Statement .putsp := by
  rfl

theorem Laws.OpcodeField.halt : Laws.OpcodeField.Statement .halt := by
  rfl

end Sys2Proof
end

