-- ==== Sys2Proof/Laws/Step.lean ====
section
/-! SUPPORT. What a step can do, said once. -/

namespace Sys2Proof.Machine

/-- If a step answers a next state, then the host has resumed an aborted session; or, from Running, the fetch gave a word and
its instruction ran; or the fetch was cancelled (R75, R78, R213). -/
theorem step_next {s t : State} (h : step s = .next t) :
    (∃ a n, s.status = .aborted a ∧ s.term.resumes = n + 1 ∧
      t = { s with status := .running, term := { s.term with resumes := n } }) ∨
    (s.status = .running ∧ ∃ w u, s.memRead s.pc = .value w u ∧ exec (decode w) u.advance = .next t) ∨
    (s.status = .running ∧ ∃ t', s.memRead s.pc = .cancelled t' ∧
      t = { s with status := .aborted s.pc, term := t' }) := by
  unfold step at h
  split at h
  next hs =>
    rcases andThen_next h with ⟨w, u, hr, hk⟩ | ⟨t', hr, rfl⟩
    · exact .inr (.inl ⟨hs, w, u, hr, hk⟩)
    · refine .inr (.inr ⟨hs, t', hr, ?_⟩)
      simp only [State.abort, State.fetchAddr_advance]
      rfl
  next => cases h
  next => cases h
  next a hs =>
    unfold State.resume at h
    split at h
    next => cases h
    next n hn => exact .inl ⟨a, n, hs, hn, (Host.Outcome.next.inj h).symm⟩

end Sys2Proof.Machine
end

