-- ==== Sys2Proof/Laws/Walk.lean ====
section
/-! SUPPORT. When the string walk of PUTS and PUTSP ends. Every round of the 65536 addresses passes KBDR_ADDR, where it takes an
item out of the script or finds it used up; and from a used-up script on, every round is like the one before. So the fuel of
a string service decides exactly whether its walk ends (log 15). -/

namespace Sys2Proof.Machine

/-- A keystroke read takes at least one item out of the script, or the script is used up and the host types on. -/
theorem readKey_consumes {s u : State} {k : Byte} (h : s.readKey = .value k u) :
    u.term.script.length < s.term.script.length ∨ (s.term.script = [] ∧ s.term.atEnd = .typing k) := by
  obtain ⟨k', r, ⟨n, hs | ⟨hs, he, rfl⟩⟩, hr⟩ | ⟨r, -, hr⟩ | ⟨-, hr⟩ := state_readKey_cases s <;> rw [hr] at h
  · obtain ⟨-, rfl⟩ := Read.value.inj h
    left
    simp [State.withScript, hs]
    omega
  · obtain ⟨rfl, rfl⟩ := Read.value.inj h
    cases n with
    | zero => exact .inr ⟨hs, he⟩
    | succ n => left; simp [State.withScript, hs]
  · cases h
  · cases h

theorem memRead_kbdr_consumes {s u : State} {w : Word} (h : s.memRead Config.kbdrAddr = .value w u) :
    u.term.script.length < s.term.script.length ∨ (s.term.script = [] ∧ ∃ k, s.term.atEnd = .typing k) := by
  have h : s.kbdrRead = .value w u := h
  unfold State.kbdrRead at h
  split at h
  next k t hk =>
    obtain ⟨-, rfl⟩ := Read.value.inj h
    exact (readKey_consumes hk).imp id fun ⟨h, he⟩ => ⟨h, k, he⟩
  next => cases h
  next => cases h

/-- No read makes the script longer. -/
theorem memRead_script_le {s u : State} {a w : Word} (h : s.memRead a = .value w u) :
    u.term.script.length ≤ s.term.script.length := by
  by_cases hd : a = Config.kbdrAddr
  · subst hd
    have h : s.kbdrRead = .value w u := h
    unfold State.kbdrRead at h
    split at h
    next k t hk =>
      obtain ⟨-, rfl⟩ := Read.value.inj h
      obtain ⟨k', r, ⟨n, hs | ⟨hs, -, rfl⟩⟩, hr⟩ | ⟨r, -, hr⟩ | ⟨-, hr⟩ := state_readKey_cases s <;> rw [hr] at hk
      · obtain ⟨-, rfl⟩ := Read.value.inj hk
        simp [State.storeBackingCell, State.withScript, hs]
        omega
      · obtain ⟨-, rfl⟩ := Read.value.inj hk
        exact Nat.zero_le _
      · cases hk
      · cases hk
    next => cases h
    next => cases h
  · by_cases hs : a = Config.kbsrAddr
    · subst hs
      have h : s.kbsrRead = .value w u := h
      unfold State.kbsrRead at h
      obtain ⟨_, _, _, hk⟩ | ⟨r, hr, hk⟩ | ⟨_, _, hk⟩ | ⟨_, hk⟩ := keyAvail_cases s.term <;>
        (rw [hk] at h; obtain ⟨-, rfl⟩ := Read.value.inj h)
      · exact Nat.le_refl _
      · simp [Terminal.withScript, hr]
      · exact Nat.le_refl _
      · exact Nat.le_refl _
    · rw [State.memRead, if_neg hs, if_neg hd] at h
      obtain ⟨-, rfl⟩ := Read.value.inj h
      exact Nat.le_refl _

/-- One round of a walk whose read gives a word that does not end the string. -/
theorem walk_round {emit : Word → Option (List Byte)} {n : Nat} {p w : Word} {s u : State} {bs : List Byte}
    (hr : s.memRead p = .value w u) (hw : emit w = some bs) :
    walk emit (n + 1) p s = walk emit n (p + 1#16) { u with term := u.term.outAll bs } := by
  rw [walk, hr]
  simp only [hw]

/-- The last round of a walk. -/
theorem walk_stop {emit : Word → Option (List Byte)} {n : Nat} {p w : Word} {s u : State}
    (hr : s.memRead p = .value w u) (hw : emit w = none) : walk emit (n + 1) p s = some (.value () u) := by
  rw [walk, hr]
  simp only [hw]

/-! ### The host types without end -/

/-- The word a read of `a` gives once the script is used up and the host types `k` without end. -/
def typedWord (k : Byte) (m : Memory) (a : Word) : Word :=
  if a = Config.kbsrAddr then 0x8000#16 else if a = Config.kbdrAddr then zext k else m.read a.toNat

/-- The keyboard data backing cell is no part of what such reads give. -/
theorem typedWord_congr {k : Byte} {m m' : Memory} (h : ∀ b, b ≠ Config.kbdrAddr.toNat → m'.read b = m.read b) (a : Word) :
    typedWord k m' a = typedWord k m a := by
  unfold typedWord
  split
  · rfl
  · split
    · rfl
    next hd => exact h _ fun e => hd (BitVec.eq_of_toNat_eq e)

/-- Such a read gives that word and leaves the host as it is. -/
theorem memRead_typing {s : State} {k : Byte} (hs : s.term.script = []) (he : s.term.atEnd = .typing k) (a : Word) :
    ∃ u, s.memRead a = .value (typedWord k s.mem a) u ∧ u.term = s.term ∧
      ∀ b, b ≠ Config.kbdrAddr.toNat → u.mem.read b = s.mem.read b := by
  have hterm : s.term.keyAvail = (true, s.term) := by simp [Terminal.keyAvail, hs, he, ScriptEnd.hasKey]
  have hkey : s.readKey = .value k s := by
    have : s.term.readKey = .key k [] := by rw [Terminal.readKey, hs, he]; rfl
    rw [State.readKey, this]
    simp only [← hs]
  unfold typedWord
  split
  next h =>
    subst h
    refine ⟨s, ?_, rfl, fun _ _ => rfl⟩
    show s.kbsrRead = _
    rw [State.kbsrRead, hterm]
    rfl
  next h =>
    split
    next hd =>
      subst hd
      refine ⟨s.storeBackingCell k, ?_, rfl, fun b hb => Memory.read_write_other _ _ hb⟩
      show s.kbdrRead = _
      rw [State.kbdrRead, hkey]
    next hd => exact ⟨s, by rw [State.memRead, if_neg h, if_neg hd], rfl, fun _ _ => rfl⟩

/-- A walk before such a host has no answer within `n` words exactly if none of them ends it. -/
theorem walk_typing (emit : Word → Option (List Byte)) {k : Byte} (n : Nat) (p : Word) (s : State)
    (hs : s.term.script = []) (he : s.term.atEnd = .typing k) :
    walk emit n p s = none ↔ ∀ i < n, emit (typedWord k s.mem (p + BitVec.ofNat 16 i)) ≠ none := by
  induction n generalizing p s with
  | zero => exact ⟨fun _ i hi => absurd hi (Nat.not_lt_zero i), fun _ => rfl⟩
  | succ n ih =>
    obtain ⟨u, hr, ht, hm⟩ := memRead_typing hs he p
    have hsucc (i : Nat) : p + BitVec.ofNat 16 (i + 1) = p + 1#16 + BitVec.ofNat 16 i := by
      rw [BitVec.add_assoc, ← BitVec.ofNat_add, Nat.add_comm]
    cases hw : emit (typedWord k s.mem p) with
    | none =>
      rw [walk_stop hr hw]
      exact ⟨fun h => (by cases h), fun h => absurd hw (by simpa using h 0 (Nat.succ_pos n))⟩
    | some bs =>
      rw [walk_round hr hw, ih (p + 1#16) _ (by simp [Terminal.outAll, ht, hs]) (by simp [Terminal.outAll, ht, he])]
      simp only [typedWord_congr (k := k) hm]
      constructor
      · rintro h (_ | i) hi
        · simp [hw]
        · rw [hsucc]; exact h i (Nat.lt_of_succ_lt_succ hi)
      · intro h i hi
        rw [← hsucc]; exact h (i + 1) (Nat.succ_lt_succ hi)

/-- A round of all 65536 addresses that does not end such a walk shows that no word does. -/
theorem walk_typing_round (emit : Word → Option (List Byte)) {k : Byte} {n : Nat} {p : Word} {s : State}
    (hs : s.term.script = []) (he : s.term.atEnd = .typing k) (hn : 65536 ≤ n) (h : walk emit n p s = none) (a : Word) :
    emit (typedWord k s.mem a) ≠ none := by
  have := (walk_typing emit n p s hs he).mp h (a - p).toNat (by have := (a - p).isLt; omega)
  rwa [BitVec.ofNat_toNat, BitVec.setWidth_eq, BitVec.add_comm, BitVec.sub_add_cancel] at this

/-! ### Every host -/

/-- What is left for a walk at `p`: a round for every script item, the way to KBDR_ADDR, and a round of a used-up script. -/
def walkBound (p : Word) (s : State) : Nat := 65536 * (s.term.script.length + 1) + (Config.kbdrAddr - p).toNat

/-- A walk that has no answer within its bound never has one; the host then types a byte without end, and neither a ready
poll, nor that byte, nor any word of ordinary storage ends the string. -/
theorem walk_none (emit : Word → Option (List Byte)) (fuel : Nat) (p : Word) (s : State) (hf : walkBound p s ≤ fuel)
    (h : walk emit fuel p s = none) :
    (∀ n, walk emit n p s = none) ∧ ∃ k, s.term.atEnd = .typing k ∧ ∀ a, emit (typedWord k s.mem a) ≠ none := by
  induction fuel generalizing p s with
  | zero => simp only [walkBound] at hf; omega
  | succ fuel ih =>
    by_cases ht : s.term.script = [] ∧ ∃ k, s.term.atEnd = .typing k
    · obtain ⟨hs, k, he⟩ := ht
      have hall := walk_typing_round emit hs he (by simp only [walkBound] at hf; omega) h
      exact ⟨fun n => (walk_typing emit n p s hs he).mpr fun _ _ => hall _, k, he, hall⟩
    · rw [walk] at h
      split at h
      next w t hr =>
        split at h
        next => cases h
        next bs hw =>
          have hfr := memRead_frame hr
          have hle := memRead_script_le hr
          have hb : walkBound (p + 1#16) { t with term := t.term.outAll bs } ≤ fuel := by
            simp only [walkBound, Terminal.outAll] at hf ⊢
            by_cases hp : p = Config.kbdrAddr
            · subst hp
              have := (memRead_kbdr_consumes hr).resolve_right ht
              have := (Config.kbdrAddr - (Config.kbdrAddr + 1#16)).isLt
              omega
            · have : (Config.kbdrAddr - (p + 1#16)).toNat + 1 = (Config.kbdrAddr - p).toNat := by
                have : p ≠ 0xFE02#16 := hp
                simp only [Config.kbdrAddr]
                bv_omega
              omega
          obtain ⟨hn, k, he, hall⟩ := ih _ _ hb h
          refine ⟨fun n => ?_, k, hfr.atEnd.symm.trans he, fun a => ?_⟩
          · cases n with
            | zero => rfl
            | succ n => rw [walk_round hr hw]; exact hn n
          · rw [← typedWord_congr (k := k) hfr.mem]; exact hall a
      next => cases h
      next => cases h

/-- The fuel of a string service is within the bound of its walk. -/
theorem walkBound_le_walkFuel (p : Word) (s : State) : walkBound p s ≤ s.walkFuel := by
  have := (Config.kbdrAddr - p).isLt
  simp only [walkBound, State.walkFuel]
  omega

/-- A PUTSP walk is never endless (it ends, is aborted or is held): a ready poll of KBSR has a zero low byte. -/
theorem walk_putsp (s : State) (p : Word) : walk putspEmit s.walkFuel p s ≠ none := fun h => by
  obtain ⟨-, k, -, hall⟩ := walk_none putspEmit _ p s (walkBound_le_walkFuel p s) h
  exact hall Config.kbsrAddr (by rw [typedWord, if_pos rfl]; decide)

theorem putsEmit_zero : putsEmit 0x0000#16 = none := by decide

theorem putspEmit_zero : putspEmit 0x0000#16 = none := by decide

end Sys2Proof.Machine
end

