-- ==== Sys2Proof/Tests/Slice0.lean ====
section
/-! SUPPORT. Tests, each one step or one decoded word, with the expected result of the vector of spec/95_test_vectors.md it is
named after or of the format table R62; and the witnesses: for the hypotheses of each statement of
Certificates/Slice0/Obligations.lean, values that meet them together. -/

namespace Sys2Proof.Tests
open Sys2Proof Sys2Proof.Machine

/-! ### Helpers -/

/-- The reset state with a program counter, memory words, registers, flag and host script. -/
def at_ (pc : Word) (cells : List (Nat × Word)) (regs : List (RegField × Word)) (c : Cond)
    (script : List KeyEvent) : State :=
  let s := { State.reset with
    pc := pc
    cond := c
    mem := cells.foldl (fun m x => m.write x.1 x.2) []
    term := { Terminal.reset with script := script } }
  regs.foldl (fun s x => s.setReg x.1 x.2) s

/-- The state before a vector "at 0x3000, word": flag Z, no keystroke. -/
def before (w : Word) (regs : List (RegField × Word)) : State := at_ 0x3000#16 [(0x3000, w)] regs .z []

/-- Whether a step answers a next state that `p` accepts. -/
def after (s : State) (p : State → Bool) : Bool :=
  match step s with
  | .next t => p t
  | .fault _ => false
  | .refused _ => false

/-- The same state before a host that stays silent past its script. -/
def silent (s : State) : State := { s with term := { s.term with atEnd := .silent } }

/-- The same state before a host that types `A` without end past its script. -/
def typing (s : State) : State := { s with term := { s.term with atEnd := .typing 0x41#8 } }

/-! ### WellFormed: the one check, on the vectors of the service table and on their neighbours -/

theorem test_wellFormed_refuses_trap_with_the_first_service_vector : (Instr.trap 0x20#8).wellFormed = false := by decide
theorem test_wellFormed_refuses_trap_with_the_last_service_vector : (Instr.trap 0x25#8).wellFormed = false := by decide
theorem test_wellFormed_takes_trap_below_and_above :
    (Instr.trap 0x1F#8).wellFormed = true ∧ (Instr.trap 0x26#8).wellFormed = true := by decide

/-! ### Decode: words written field by field from R62 -/

theorem test_decode_br : decode 0b0000101011111110#16 = .br true false true 0b011111110#9 := by decide
theorem test_decode_addReg : decode 0b0001110101000011#16 = .addReg 6#3 5#3 3#3 := by decide
theorem test_decode_addImm : decode 0b0001110101110001#16 = .addImm 6#3 5#3 0b10001#5 := by decide
theorem test_decode_ld : decode 0b0010011100000001#16 = .ld 3#3 0b100000001#9 := by decide
theorem test_decode_st : decode 0b0011011100000001#16 = .st 3#3 0b100000001#9 := by decide
theorem test_decode_jsr : decode 0b0100110000000011#16 = .jsr 0b10000000011#11 := by decide
theorem test_decode_jsrr : decode 0b0100000110000000#16 = .jsrr 6#3 := by decide
theorem test_decode_andReg : decode 0b0101110101000011#16 = .andReg 6#3 5#3 3#3 := by decide
theorem test_decode_andImm : decode 0b0101110101110001#16 = .andImm 6#3 5#3 0b10001#5 := by decide
theorem test_decode_ldr : decode 0b0110110011100001#16 = .ldr 6#3 3#3 0b100001#6 := by decide
theorem test_decode_str : decode 0b0111110011100001#16 = .str 6#3 3#3 0b100001#6 := by decide
theorem test_decode_rti : decode 0b1000000000000001#16 = .rti := by decide
theorem test_decode_not : decode 0b1001110011111111#16 = .not 6#3 3#3 := by decide
theorem test_decode_ldi : decode 0b1010011100000001#16 = .ldi 3#3 0b100000001#9 := by decide
theorem test_decode_sti : decode 0b1011011100000001#16 = .sti 3#3 0b100000001#9 := by decide
theorem test_decode_jmp : decode 0b1100000110000000#16 = .jmp 6#3 := by decide
theorem test_decode_reserved : decode 0b1101111111111111#16 = .reserved := by decide
theorem test_decode_lea : decode 0b1110011100000001#16 = .lea 3#3 0b100000001#9 := by decide
theorem test_decode_trap : decode 0b1111000010011001#16 = .trap 0x99#8 := by decide
theorem test_decode_services :
    decode 0b1111000000100000#16 = .getc ∧ decode 0b1111000000100001#16 = .out ∧
    decode 0b1111000000100010#16 = .puts ∧ decode 0b1111000000100011#16 = .inKey ∧
    decode 0b1111000000100100#16 = .putsp ∧ decode 0b1111000000100101#16 = .halt := by decide

/-- V-E2, V-E3, V-E4: ignored bits. -/
theorem test_decode_ignored_bits :
    decode 0x1018#16 = decode 0x1000#16 ∧ decode 0xCEFF#16 = .jmp 3#3 ∧ decode 0xFF25#16 = .halt := by decide

/-- The table numbers a row's bits as R7 does. -/
theorem test_decodeTableWord : decodeTableWord 16 0x5401 = some (.andReg 2#3 0#3 1#3) := by decide

/-- The encoder, on three words the spec writes beside their assembly (P1, P2). -/
theorem test_encode : encode (.br false false true 0x1FD#9) = 0x03FD#16 ∧ encode (.str 1#3 0#3 1#6) = 0x7201#16 ∧
    encode .halt = 0xF025#16 := by decide

/-! ### Operate and LEA -/

theorem test_VO1_add_carry_is_lost : after (before 0x1042#16 [(1#3, 0xFFFF#16), (2#3, 1#16)])
    (fun t => t.reg 0#3 == 0x0000#16 && t.cond == .z && t.pc == 0x3001#16) = true := by decide
theorem test_VO2_add_overflow_is_silent : after (before 0x1042#16 [(1#3, 0x7FFF#16), (2#3, 1#16)])
    (fun t => t.reg 0#3 == 0x8000#16 && t.cond == .n && t.reg 1#3 == 0x7FFF#16) = true := by decide
theorem test_VO3_add_imm : after (before 0x1070#16 [(1#3, 0x0010#16)])
    (fun t => t.reg 0#3 == 0x0000#16 && t.cond == .z && t.pc == 0x3001#16) = true := by decide
theorem test_VO6_add_imm_minus_one : after (before 0x107F#16 [(1#3, 0x8000#16)])
    (fun t => t.reg 0#3 == 0x7FFF#16 && t.cond == .p) = true := by decide
theorem test_VS4_and : after (before 0x5401#16 [(0#3, 0xFF00#16), (1#3, 0x0F0F#16)])
    (fun t => t.reg 2#3 == 0x0F00#16 && t.cond == .p) = true := by decide
theorem test_VO8_and : after (before 0x5042#16 [(1#3, 0x8000#16), (2#3, 0xFFFF#16)])
    (fun t => t.reg 0#3 == 0x8000#16 && t.cond == .n) = true := by decide
theorem test_VO10_and_imm : after (before 0x5070#16 [(1#3, 0x1234#16)])
    (fun t => t.reg 0#3 == 0x1230#16 && t.cond == .p) = true := by decide
theorem test_VO12_and_imm_clears : after (before 0x56E0#16 [(3#3, 0x1234#16)])
    (fun t => t.reg 3#3 == 0x0000#16 && t.cond == .z) = true := by decide
theorem test_VO13_not : after (before 0x907F#16 [(1#3, 0x8000#16)])
    (fun t => t.reg 0#3 == 0x7FFF#16 && t.cond == .p) = true := by decide
theorem test_VO15_not_in_place : after (before 0x903F#16 [])
    (fun t => t.reg 0#3 == 0xFFFF#16 && t.cond == .n) = true := by decide
theorem test_VL18_lea_wraps : after (at_ 0xFFFF#16 [(0xFFFF, 0xE000#16)] [(0#3, 5#16)] .n [])
    (fun t => t.reg 0#3 == 0x0000#16 && t.cond == .z && t.pc == 0x0000#16) = true := by decide
theorem test_VL20_lea_negative : after (before 0xE1FF#16 [])
    (fun t => t.reg 0#3 == 0x3000#16 && t.cond == .p) = true := by decide

/-! ### Control transfer -/

theorem test_VC6_br_not_taken : after (before 0x0A01#16 []) (fun t => t.pc == 0x3001#16) = true := by decide
theorem test_VC8_br_wraps : after (at_ 0xFFFF#16 [(0xFFFF, 0x0E01#16)] [] .p [])
    (fun t => t.pc == 0x0001#16 && t.cond == .p) = true := by decide
theorem test_VC9_jsr_backwards : after (before 0x4C00#16 [])
    (fun t => t.reg 7#3 == 0x3001#16 && t.pc == 0x2C01#16) = true := by decide
theorem test_VS6_jsr : after (at_ 0x3000#16 [(0x3000, 0x4805#16)] [] .n [])
    (fun t => t.reg 7#3 == 0x3001#16 && t.pc == 0x3006#16 && t.cond == .n) = true := by decide
theorem test_VC12_jsrr : after (at_ 0x3000#16 [(0x3000, 0x4080#16)] [(2#3, 0x4000#16)] .n [])
    (fun t => t.reg 7#3 == 0x3001#16 && t.pc == 0x4000#16 && t.cond == .n) = true := by decide
theorem test_VC13_jsrr_through_r7 : after (before 0x41C0#16 [(7#3, 0x5000#16)])
    (fun t => t.reg 7#3 == 0x3001#16 && t.pc == 0x3001#16) = true := by decide
theorem test_VC14_jmp : after (before 0xC0C0#16 [(3#3, 0x1234#16)])
    (fun t => t.pc == 0x1234#16 && t.reg 7#3 == 0x0000#16) = true := by decide

/-! ### Loads and stores -/

theorem test_VL1_ld : after (at_ 0x3000#16 [(0x3000, 0x2403#16), (0x3004, 0x8001#16)] [] .z [])
    (fun t => t.reg 2#3 == 0x8001#16 && t.cond == .n && t.pc == 0x3001#16) = true := by decide
theorem test_VL2_ld_wraps : after (at_ 0xFFFF#16 [(0xFFFF, 0x2001#16), (0x0001, 0x0042#16)] [] .z [])
    (fun t => t.reg 0#3 == 0x0042#16 && t.cond == .p && t.pc == 0x0000#16) = true := by decide
theorem test_VL4_st : after (before 0x3402#16 [(2#3, 0xBEEF#16)])
    (fun t => t.mem == [(0x3000, 0x3402#16), (0x3003, 0xBEEF#16)] && t.cond == .z) = true := by decide
theorem test_VL5_st_over_the_next_word : after (before 0x3000#16 [(0#3, 0xF025#16)])
    (fun t => t.mem.read 0x3001 == 0xF025#16 && after t (fun u => u.status == .halted)) = true := by decide
theorem test_VL6_ldr_polls : after (at_ 0x3000#16 [(0x3000, 0x6040#16)] [(1#3, 0xFE00#16)] .z [.key 0x7A#8])
    (fun t => t.reg 0#3 == 0x8000#16 && t.cond == .n && t.term.script == [.key 0x7A#8]) = true := by decide
theorem test_VL8_ldr_takes_the_key :
    after (at_ 0x3000#16 [(0x3000, 0x6042#16)] [(1#3, 0xFE00#16)] .z [.key 0x7A#8])
      (fun t => t.reg 0#3 == 0x007A#16 && t.cond == .p && t.term.script == []) = true := by decide
theorem test_VL11_str_to_a_device : after (before 0x7040#16 [(0#3, 0x1234#16), (1#3, 0xFE00#16)])
    (fun t => t == { before 0x7040#16 [(0#3, 0x1234#16), (1#3, 0xFE00#16)] with pc := 0x3001#16 }) = true := by decide
theorem test_VL13_str : after (before 0x7201#16 [(0#3, 0x3008#16), (1#3, 0xFFF9#16)])
    (fun t => t.mem == [(0x3000, 0x7201#16), (0x3009, 0xFFF9#16)]) = true := by decide
theorem test_VS5_ldi : after (at_ 0x3000#16 [(0x3000, 0xA602#16), (0x3003, 0x4000#16), (0x4000, 0x1234#16)] [] .z [])
    (fun t => t.reg 3#3 == 0x1234#16 && t.cond == .p && t.pc == 0x3001#16) = true := by decide
theorem test_VL14_ldi_of_the_keyboard :
    after (at_ 0x3000#16 [(0x3000, 0xA002#16), (0x3003, 0xFE02#16)] [(0#3, 7#16)] .p [.key 0x00#8])
      (fun t => t.reg 0#3 == 0x0000#16 && t.cond == .z && t.term.script == []) = true := by decide
theorem test_VL15_sti : after (at_ 0x3000#16 [(0x3000, 0xB201#16), (0x3002, 0x5000#16)] [(1#3, 0x00AA#16)] .z [])
    (fun t => t.mem.read 0x5000 == 0x00AA#16 && t.mem.read 0x3002 == 0x5000#16) = true := by decide
theorem test_VL16_sti_to_a_device :
    after (at_ 0x3000#16 [(0x3000, 0xB201#16), (0x3002, 0xFE00#16)] [(1#3, 0x00AA#16)] .z [])
      (fun t => t.mem == [(0x3000, 0xB201#16), (0x3002, 0xFE00#16)]) = true := by decide

/-! ### Traps, faults, aborted input -/

theorem test_VT2_getc_zero : after (at_ 0x3000#16 [(0x3000, 0xF020#16)] [(0#3, 9#16)] .p [.key 0x00#8])
    (fun t => t.reg 0#3 == 0x0000#16 && t.cond == .z && t.reg 7#3 == 0x3001#16 && t.term.output == []) = true := by decide
theorem test_VX1_getc_cancelled :
    after (at_ 0x3000#16 [(0x3000, 0xF020#16)] [(0#3, 0x1234#16)] .n [.cancel])
      (fun t => t.reg 0#3 == 0x1234#16 && t.reg 7#3 == 0x0000#16 && t.cond == .n && t.pc == 0x3000#16 &&
        t.status == .aborted 0x3000#16) = true := by decide
theorem test_VT1_out : after (before 0xF021#16 [(0#3, 0x1241#16)])
    (fun t => t.term.output == [0x41#8] && t.reg 7#3 == 0x3001#16 && t.reg 0#3 == 0x1241#16) = true := by decide
theorem test_VT7_puts_wraps :
    after (at_ 0x3000#16 [(0x3000, 0xF022#16), (0xFFFF, 0x0041#16)] [(0#3, 0xFFFF#16)] .z [])
      (fun t => t.term.output == [0x41#8] && t.reg 0#3 == 0xFFFF#16 && t.reg 7#3 == 0x3001#16) = true := by decide
theorem test_VT8_puts_over_kbsr : after (at_ 0x3000#16 [(0x3000, 0xF022#16)] [(0#3, 0xFE00#16)] .z [.key 0x7A#8])
    (fun t => t.term.output == [0x00#8] && t.term.script == [.key 0x7A#8]) = true := by decide
theorem test_VT4_in : after (at_ 0x3000#16 [(0x3000, 0xF023#16)] [] .z [.key 0x7A#8])
    (fun t => t.term.output == t.params.inPrompt ++ [0x7A#8] && t.reg 0#3 == 0x007A#16 && t.cond == .p &&
      t.reg 7#3 == 0x3001#16) = true := by decide
theorem test_VX2_in_cancelled : after (at_ 0x3000#16 [(0x3000, 0xF023#16)] [(0#3, 0x1234#16)] .n [.cancel])
    (fun t => t.term.output == t.params.inPrompt && t.reg 0#3 == 0x1234#16 && t.reg 7#3 == 0x0000#16 &&
      t.pc == 0x3000#16 && t.status == .aborted 0x3000#16) = true := by decide
theorem test_VT9_putsp : after (at_ 0x3000#16
      [(0x3000, 0xF024#16), (0x4000, 0x6548#16), (0x4001, 0x6C6C#16), (0x4002, 0x006F#16)] [(0#3, 0x4000#16)] .z [])
    (fun t => t.term.output == [0x48#8, 0x65#8, 0x6C#8, 0x6C#8, 0x6F#8]) = true := by decide
theorem test_VT10_putsp_ends_at_a_zero_low_byte :
    after (at_ 0x3000#16 [(0x3000, 0xF024#16), (0x4000, 0x4100#16)] [(0#3, 0x4000#16)] .z [])
      (fun t => t.term.output == [] && t.status == .running) = true := by decide
theorem test_VT12_halt : after (at_ 0x3007#16 [(0x3007, 0xF025#16)] [] .z [])
    (fun t => t.term.output == t.params.haltNotice && t.reg 7#3 == 0x3008#16 && t.pc == 0x3008#16 &&
      t.status == .halted) = true := by decide
theorem test_VT15_illegal_trap : after (before 0xF000#16 [(7#3, 0x1111#16)])
    (fun t => t.reg 7#3 == 0x3001#16 && t.pc == 0x3001#16 &&
      t.status == .faulted (.illegalTrap 0x00#8) 0x3000#16) = true := by decide
theorem test_VT16_illegal_trap_above : after (before 0xF026#16 [])
    (fun t => t.status == .faulted (.illegalTrap 0x26#8) 0x3000#16) = true := by decide
theorem test_VR2_rti : after (before 0x8FFF#16 [])
    (fun t => t.pc == 0x3001#16 && t.status == .faulted (.illegalOpcode 8#4) 0x3000#16) = true := by decide
theorem test_VR4_reserved : after (at_ 0xFFFF#16 [(0xFFFF, 0xDFFF#16)] [] .z [])
    (fun t => t.pc == 0x0000#16 && t.status == .faulted (.illegalOpcode 13#4) 0xFFFF#16) = true := by decide

/-! ### Fetch and load -/

theorem test_VM2_fetch_from_kbsr : after (at_ 0xFE00#16 [] [] .z [.key 0x25#8])
    (fun t => t.pc == 0xFE01#16 && t.status == .faulted (.illegalOpcode 8#4) 0xFE00#16) = true := by decide
theorem test_VM4_fetch_from_kbdr : after (at_ 0xFE02#16 [] [] .z [.key 0x25#8])
    (fun t => t.pc == 0xFE03#16 && t.status == .running && t.term.script == []) = true := by decide
theorem test_VB2_image : boot (some [0x30#8, 0x00#8, 0x12#8, 0x34#8, 0x56#8, 0x78#8]) =
    .running { State.reset with mem := [(0x3000, 0x1234#16), (0x3001, 0x5678#16)] } := by decide
theorem test_VB3_image_is_truncated : loadWords 0xFFFF [0x1111#16, 0x2222#16] [] = [(0xFFFF, 0x1111#16)] := by decide
theorem test_withFetchWord : after (State.reset.withFetchWord 16 0x103F)
    (fun t => t.reg 0#3 == 0xFFFF#16 && t.pc == 0x3001#16) = true := by decide

/-! ### Witnesses: encoding, operands, memory -/

/-- DecodeInvertsEncode, and IllegalTrapFaultsAfterTheLink and EveryFieldIsReadFromItsPlace at the vectors beside the table. -/
theorem witness_trap_vectors_beside_the_table :
    (Instr.trap 0x1F#8).wellFormed = true ∧ (Instr.trap 0x26#8).wellFormed = true ∧
    isServiceVector 0x1F#8 = false ∧ isServiceVector 0x26#8 = false ∧
    (0x1F#8).toNat < 0x20 ∧ 0x25 < (0x26#8).toNat := by decide

theorem witness_IgnoredBitsNeverMatter :
    (0x1000#16 ^^^ 0x1018#16) &&& ~~~ ignoredBits 0x1000#16 = 0#16 ∧
    (0xC0C0#16 ^^^ 0xCEFF#16) &&& ~~~ ignoredBits 0xC0C0#16 = 0#16 := by decide

theorem witness_SignExtensionFollowsItsRule :
    ((9 : Nat) = 5 ∨ (9 : Nat) = 6 ∨ (9 : Nat) = 9 ∨ (9 : Nat) = 11) ∧ (15 : Nat) < 16 := by decide

theorem witness_FlagUpdateFollowsItsRule :
    (0x8000#16).getLsbD 15 = true ∧ (0xFFFF#16).getLsbD 15 = true ∧
    (0x7FFF#16 ≠ 0x0000#16 ∧ (0x7FFF#16).getLsbD 15 = false) ∧
    (0x0001#16 ≠ 0x0000#16 ∧ (0x0001#16).getLsbD 15 = false) := by decide

/-- A memory with a word at each end of the address space. -/
def bothEnds : Memory := [(0x0000, 0x0041#16), (0xFFFF, 0x8001#16)]

/-- BridgedWritesFollowTheirRule, DirectStoresWriteOneWord, LoadPutsTheImageAtItsOrigin. -/
theorem witness_canonical_memory :
    bothEnds.wf = true ∧ Ordinary 0xFDFF#16 ∧ Ordinary 0xFE01#16 ∧ Ordinary 0xFE03#16 ∧
    ¬ Ordinary 0xFE00#16 ∧ ¬ Ordinary 0xFE02#16 := by decide

theorem witness_CanonicalMemoriesWithEqualReadsAreEqual :
    bothEnds.wf = true ∧ (Memory.write [(0xFFFF, 0x8001#16)] 0 0x0041#16).wf = true ∧
    ∀ a : Word, bothEnds.read a.toNat = (Memory.write [(0xFFFF, 0x8001#16)] 0 0x0041#16).read a.toNat :=
  ⟨by decide, by decide, fun _ => rfl⟩

/-! ### Witnesses: loads and stores -/

/-- A state whose fetch is done, at 0x3001, with R1 = `base`. -/
def fetched (base : Word) (cells : List (Nat × Word)) (script : List KeyEvent) : State :=
  at_ 0x3001#16 cells [(1#3, base)] .p script

/-- Ordinary storage by LD (offset 3), as V-L1. -/
theorem witness_DirectLoads_ld_storage :
    ReadsAs (fetched 0#16 [(0x3004, 0x8001#16)] []) ((fetched 0#16 [(0x3004, 0x8001#16)] []).pc + (3#9).signExtend 16)
      0x8001#16 (fetched 0#16 [(0x3004, 0x8001#16)] []) :=
  .storage 0x3004#16 (by decide)

/-- The top word of memory by LDR (offset -1), as V-L9. -/
theorem witness_DirectLoads_ldr_storage :
    ReadsAs (fetched 0#16 [(0xFFFF, 0x0005#16)] [])
      ((fetched 0#16 [(0xFFFF, 0x0005#16)] []).reg 1#3 + (0x3F#6).signExtend 16) 0x0005#16
      (fetched 0#16 [(0xFFFF, 0x0005#16)] []) :=
  .storage 0xFFFF#16 (by decide)

/-- The four answers of a poll of KBSR by LDR (offset 0). -/
theorem witness_DirectLoads_ldr_kbsr :
    ReadsAs (fetched 0xFE00#16 [] [.key 0x7A#8]) ((fetched 0xFE00#16 [] [.key 0x7A#8]).reg 1#3 + (0#6).signExtend 16)
      0x8000#16 (fetched 0xFE00#16 [] [.key 0x7A#8]) ∧
    ReadsAs (fetched 0xFE00#16 [] [.quiet]) ((fetched 0xFE00#16 [] [.quiet]).reg 1#3 + (0#6).signExtend 16)
      0x0000#16 ((fetched 0xFE00#16 [] [.quiet]).withScript []) ∧
    ReadsAs (fetched 0xFE00#16 [] [.cancel]) ((fetched 0xFE00#16 [] [.cancel]).reg 1#3 + (0#6).signExtend 16)
      0x0000#16 (fetched 0xFE00#16 [] [.cancel]) ∧
    ReadsAs (fetched 0xFE00#16 [] []) ((fetched 0xFE00#16 [] []).reg 1#3 + (0#6).signExtend 16)
      0x0000#16 (fetched 0xFE00#16 [] []) :=
  ⟨.ready 0x7A#8 [] rfl, .notReady [] rfl, .cancelling [] rfl, .ended rfl (.inl rfl)⟩

/-- A poll of KBSR and a keystroke by LDR before a host that types without end. -/
theorem witness_DirectLoads_ldr_typing :
    ReadsAs (typing (fetched 0xFE00#16 [] [])) ((typing (fetched 0xFE00#16 [] [])).reg 1#3 + (0#6).signExtend 16)
      0x8000#16 (typing (fetched 0xFE00#16 [] [])) ∧
    ∃ u, ReadsAs (typing (fetched 0xFE00#16 [] [])) ((typing (fetched 0xFE00#16 [] [])).reg 1#3 + (2#6).signExtend 16)
      0x0041#16 u :=
  ⟨.typing 0x41#8 rfl rfl, _, .data 0x41#8 [] ⟨0, .inr ⟨rfl, rfl, rfl⟩⟩⟩

/-- A keystroke by LDR (offset 2) after one poll that finds none, as V-L8. -/
theorem witness_DirectLoads_ldr_kbdr :
    ∃ u, ReadsAs (fetched 0xFE00#16 [] [.quiet, .key 0x7A#8])
      ((fetched 0xFE00#16 [] [.quiet, .key 0x7A#8]).reg 1#3 + (2#6).signExtend 16) 0x007A#16 u :=
  ⟨_, .data 0x7A#8 [] ⟨1, .inl rfl⟩⟩

/-- LD from the keyboard registers, from just below them. -/
theorem witness_DirectLoads_ld_devices :
    ReadsAs (at_ 0xFDFF#16 [] [] .z [.key 0x7A#8]) ((at_ 0xFDFF#16 [] [] .z [.key 0x7A#8]).pc + (1#9).signExtend 16)
      0x8000#16 (at_ 0xFDFF#16 [] [] .z [.key 0x7A#8]) ∧
    ∃ u, ReadsAs (at_ 0xFDFF#16 [] [] .z [.key 0x7A#8])
      ((at_ 0xFDFF#16 [] [] .z [.key 0x7A#8]).pc + (3#9).signExtend 16) 0x007A#16 u :=
  ⟨.ready 0x7A#8 [] rfl, _, .data 0x7A#8 [] ⟨0, .inl rfl⟩⟩

/-- LDI through ordinary storage (V-S5) and to the keyboard (V-L14). -/
theorem witness_IndirectLoadWritesTheWordPointedTo :
    (ReadsAs (fetched 0#16 [(0x3003, 0x4000#16), (0x4000, 0x1234#16)] [])
        ((fetched 0#16 [(0x3003, 0x4000#16), (0x4000, 0x1234#16)] []).pc + (2#9).signExtend 16) 0x4000#16
        (fetched 0#16 [(0x3003, 0x4000#16), (0x4000, 0x1234#16)] []) ∧
      ReadsAs (fetched 0#16 [(0x3003, 0x4000#16), (0x4000, 0x1234#16)] []) 0x4000#16 0x1234#16
        (fetched 0#16 [(0x3003, 0x4000#16), (0x4000, 0x1234#16)] [])) ∧
    (ReadsAs (fetched 0#16 [(0x3003, 0xFE02#16)] [.key 0x00#8])
        ((fetched 0#16 [(0x3003, 0xFE02#16)] [.key 0x00#8]).pc + (2#9).signExtend 16) 0xFE02#16
        (fetched 0#16 [(0x3003, 0xFE02#16)] [.key 0x00#8]) ∧
      ∃ w, ReadsAs (fetched 0#16 [(0x3003, 0xFE02#16)] [.key 0x00#8]) 0xFE02#16 0x0000#16 w) :=
  ⟨⟨.storage 0x3003#16 (by decide), .storage 0x4000#16 (by decide)⟩, .storage 0x3003#16 (by decide), _,
    .data 0x00#8 [] ⟨0, .inl rfl⟩⟩

/-- STI to storage (V-L15) and to a device (V-L16), with canonical memories. -/
theorem witness_IndirectStoreWritesOneWord :
    (ReadsAs (fetched 0xAA#16 [(0x3002, 0x5000#16)] [])
        ((fetched 0xAA#16 [(0x3002, 0x5000#16)] []).pc + (1#9).signExtend 16) 0x5000#16
        (fetched 0xAA#16 [(0x3002, 0x5000#16)] []) ∧ (fetched 0xAA#16 [(0x3002, 0x5000#16)] []).mem.wf = true) ∧
    (ReadsAs (fetched 0xAA#16 [(0x3002, 0xFE00#16)] [])
        ((fetched 0xAA#16 [(0x3002, 0xFE00#16)] []).pc + (1#9).signExtend 16) 0xFE00#16
        (fetched 0xAA#16 [(0x3002, 0xFE00#16)] []) ∧ (fetched 0xAA#16 [(0x3002, 0xFE00#16)] []).mem.wf = true) :=
  ⟨⟨.storage 0x3002#16 (by decide), by decide⟩, .storage 0x3002#16 (by decide), by decide⟩

/-- Whether a meaning answers a next state that `p` accepts. -/
def answers (r : Result) (p : State → Bool) : Bool :=
  match r with
  | .next t => p t
  | .fault _ => false
  | .refused _ => false

theorem answers_next {r : Result} {p : State → Bool} (h : answers r p = true) : ∃ t, r = .next t ∧ p t = true := by
  cases r with
  | next t => exact ⟨t, rfl, h⟩
  | fault _ => cases h
  | refused _ => cases h

theorem after_next {s : State} {p : State → Bool} (h : after s p = true) : ∃ t, step s = .next t ∧ p t = true :=
  answers_next h

/-- LoadsChangeNothingElse: each form completes with a key read, on a canonical memory, and each is aborted at the end of
input. -/
theorem witness_LoadsChangeNothingElse :
    (∃ t, exec (.ld 0#3 1#9) (at_ 0xFE01#16 [] [] .z [.key 0x7A#8]) = .next t ∧ decide (t.reg 0#3 = 0x7A#16) = true) ∧
    (∃ t, exec (.ldr 0#3 1#3 2#6) (fetched 0xFE00#16 [] [.key 0x7A#8]) = .next t ∧
      decide (t.reg 0#3 = 0x7A#16) = true) ∧
    (∃ t, exec (.ldi 0#3 2#9) (fetched 0#16 [(0x3003, 0xFE02#16)] [.key 0x7A#8]) = .next t ∧
      decide (t.reg 0#3 = 0x7A#16) = true) ∧
    (∃ t, exec (.ldr 0#3 1#3 2#6) (fetched 0xFE00#16 [] []) = .next t ∧
      decide (t.status = .aborted 0x3000#16) = true) ∧
    (fetched 0#16 [(0x3003, 0xFE02#16)] []).mem.wf = true :=
  ⟨answers_next (by decide), answers_next (by decide), answers_next (by decide), answers_next (by decide), by decide⟩

/-! ### Witnesses: control transfer -/

/-- BRz with Z (taken) and BRnp with Z (not taken). -/
theorem witness_BranchFollowsItsConditionBits :
    (BitVec.ofBool false ++ BitVec.ofBool true ++ BitVec.ofBool false).setWidth 16 &&& State.reset.slot 9 ≠ 0#16 ∧
    (BitVec.ofBool true ++ BitVec.ofBool false ++ BitVec.ofBool true).setWidth 16 &&& State.reset.slot 9 = 0#16 := by
  decide

theorem witness_JsrrLinksBeforeReadingBase : (2#3 : RegField) ≠ 7#3 ∧ (7#3 : RegField) = 7#3 := by decide

/-! ### Witnesses: services and aborted input -/

/-- GetcReadsOneKeyWithoutEcho and InPromptsReadsAndEchoes, with and without polls that find none. -/
theorem witness_NextKeyIs :
    (fetched 0#16 [] [.key 0x00#8]).term.NextKeyIs 0x00#8 [] ∧
    (fetched 0#16 [] [.quiet, .quiet, .key 0xFF#8, .cancel]).term.NextKeyIs 0xFF#8 [.cancel] ∧
    (typing (fetched 0#16 [] [.quiet])).term.NextKeyIs 0x41#8 [] :=
  ⟨⟨0, .inl rfl⟩, ⟨2, .inl rfl⟩, 1, .inr ⟨rfl, rfl, rfl⟩⟩

/-- PUTS across the top of memory (V-T7) and PUTSP of one full and one half word. -/
def wrapping : State := at_ 0x3001#16 [(0xFFFF, 0x0041#16)] [(0#3, 0xFFFF#16)] .z []
def packed : State := at_ 0x3001#16 [(0x4000, 0x6548#16), (0x4001, 0x006F#16)] [(0#3, 0x4000#16)] .z []

theorem wrapping_word_0 : Ordinary (wrapping.reg 0#3 + 0#16) ∧ wrapping.mem.read (wrapping.reg 0#3 + 0#16).toNat = 0x0041#16 := by
  decide
theorem wrapping_word_1 : Ordinary (wrapping.reg 0#3 + 1#16) ∧ wrapping.mem.read (wrapping.reg 0#3 + 1#16).toNat = 0x0000#16 := by
  decide
theorem packed_word_0 : Ordinary (packed.reg 0#3 + 0#16) ∧ packed.mem.read (packed.reg 0#3 + 0#16).toNat = 0x6548#16 := by decide
theorem packed_word_1 : Ordinary (packed.reg 0#3 + 1#16) ∧ packed.mem.read (packed.reg 0#3 + 1#16).toNat = 0x006F#16 := by decide
theorem packed_word_2 : Ordinary (packed.reg 0#3 + 2#16) ∧ packed.mem.read (packed.reg 0#3 + 2#16).toNat = 0x0000#16 := by decide

theorem witness_StringServicesPrintOrdinaryMemory_puts :
    (∀ k (h : k < ([0x0041#16] ++ [0x0000#16]).length), Ordinary (wrapping.reg 0#3 + BitVec.ofNat 16 k) ∧
      wrapping.mem.read (wrapping.reg 0#3 + BitVec.ofNat 16 k).toNat = ([0x0041#16] ++ [0x0000#16])[k]) ∧
    (∀ w ∈ [0x0041#16], putsFormat.ends w = false) ∧ putsFormat.ends 0x0000#16 = true := by
  refine ⟨fun k h => ?_, by simp [putsFormat], by simp [putsFormat]⟩
  have h : k < 2 := h
  obtain rfl | rfl : k = 0 ∨ k = 1 := by omega
  · exact wrapping_word_0
  · exact wrapping_word_1

theorem witness_StringServicesPrintOrdinaryMemory_putsp :
    (∀ k (h : k < ([0x6548#16, 0x006F#16] ++ [0x0000#16]).length), Ordinary (packed.reg 0#3 + BitVec.ofNat 16 k) ∧
      packed.mem.read (packed.reg 0#3 + BitVec.ofNat 16 k).toNat = ([0x6548#16, 0x006F#16] ++ [0x0000#16])[k]) ∧
    (∀ w ∈ [0x6548#16, 0x006F#16], putspFormat.ends w = false) ∧ putspFormat.ends 0x0000#16 = true := by
  refine ⟨fun k h => ?_, by simp [putspFormat], by simp [putspFormat]⟩
  have h : k < 3 := h
  obtain rfl | rfl | rfl : k = 0 ∨ k = 1 ∨ k = 2 := by omega
  · exact packed_word_0
  · exact packed_word_1
  · exact packed_word_2

/-- A walk that starts at the keyboard data register, for any format, ends, is cancelled or holds as the host decides. -/
def keyboardWalk (script : List KeyEvent) : State := at_ 0x3001#16 [] [(0#3, 0xFE02#16)] .z script

theorem witness_StringServicesFollowTheirLoops_runs :
    (∃ t, StringRuns putsFormat ((keyboardWalk [.key 0x41#8]).reg 0#3)
      ((keyboardWalk [.key 0x41#8]).setReg 7#3 (keyboardWalk [.key 0x41#8]).pc) t) ∧
    (∃ t, StringRuns putspFormat ((keyboardWalk [.key 0x41#8]).reg 0#3)
      ((keyboardWalk [.key 0x41#8]).setReg 7#3 (keyboardWalk [.key 0x41#8]).pc) t) :=
  ⟨⟨_, .char (.data 0x41#8 [] ⟨0, .inl rfl⟩) (by decide) (.stop (.storage 0xFE03#16 (by decide)) (by decide))⟩,
    _, .char (.data 0x41#8 [] ⟨0, .inl rfl⟩) (by decide) (.stop (.storage 0xFE03#16 (by decide)) (by decide))⟩

theorem witness_StringServicesFollowTheirLoops_cancels (f : StringFormat) :
    (∃ t, StringCancels f ((keyboardWalk [.cancel]).reg 0#3)
      ((keyboardWalk [.cancel]).setReg 7#3 (keyboardWalk [.cancel]).pc) t) ∧
    (∃ t, StringCancels f ((keyboardWalk []).reg 0#3) ((keyboardWalk []).setReg 7#3 (keyboardWalk []).pc) t) :=
  ⟨⟨_, .here ⟨rfl, [], ⟨0, .inl rfl⟩, rfl⟩⟩, _, .here ⟨rfl, [], ⟨0, .inr ⟨rfl, rfl, rfl⟩⟩, rfl⟩⟩

theorem witness_StringServicesFollowTheirLoops_holds (f : StringFormat) :
    StringHolds f ((silent (keyboardWalk [])).reg 0#3)
      ((silent (keyboardWalk [])).setReg 7#3 (silent (keyboardWalk [])).pc) :=
  .here ⟨rfl, rfl, 0, rfl⟩

/-- `n` words of value 1 from `lo` on. -/
def filled (lo n : Nat) : Memory := (List.range' lo n).map fun a => (a, 0x0001#16)

theorem filled_read (n : Nat) : ∀ lo a, lo ≤ a → a < lo + n → (filled lo n).read a = 0x0001#16 := by
  induction n with
  | zero => intro lo a h h'; omega
  | succ n ih =>
    intro lo a h h'
    simp only [filled, List.range'_succ, List.map_cons, Memory.read]
    split
    · rfl
    · exact ih (lo + 1) a (by omega) (by omega)

/-- A state whose memory holds no zero word, before a host that types without end. -/
def endless : State := typing { State.reset with mem := filled 0 65536 }

theorem endless_read (a : Word) : endless.mem.read a.toNat ≠ 0x0000#16 := by
  rw [show endless.mem = filled 0 65536 from rfl, filled_read 65536 0 a.toNat (Nat.zero_le _) (by have := a.isLt; omega)]
  decide

theorem witness_PutsWithoutATerminatorNeverEnds :
    endless.term.script = [] ∧ endless.term.atEnd = .typing 0x41#8 ∧ 0x41#8 ≠ 0x00#8 ∧
    ∀ a : Word, Ordinary a → endless.mem.read a.toNat ≠ 0x0000#16 :=
  ⟨rfl, rfl, by decide, fun a _ => endless_read a⟩

/-- From such a state any number of words is written. -/
theorem goes_on {k : Byte} (hk : k ≠ 0x00#8) (n : Nat) : ∀ (p : Word) (s : State), s.term.script = [] →
    s.term.atEnd = .typing k → (∀ a : Word, Ordinary a → s.mem.read a.toNat ≠ 0x0000#16) →
    ∃ t, StringRounds putsFormat n p s t := by
  induction n with
  | zero => intro p s _ _ _; exact ⟨s, .zero⟩
  | succ n ih =>
    intro p s hs he hm
    by_cases h0 : p = 0xFE00#16
    · subst h0
      obtain ⟨t, ht⟩ := ih (0xFE00#16 + 1#16) (s.wrote (putsFormat.bytes 0x8000#16)) hs he hm
      exact ⟨t, .succ (.typing k hs he) (by decide) ht⟩
    · by_cases h2 : p = 0xFE02#16
      · subst h2
        have hw : putsFormat.ends (0x00#8 ++ k) = false := by
          have : ∀ k : Byte, k ≠ 0x00#8 → putsFormat.ends (0x00#8 ++ k) = false := by decide
          exact this k hk
        have hr : ReadsAs s 0xFE02#16 (0x00#8 ++ k) _ := .data k [] ⟨0, .inr ⟨hs, he, rfl⟩⟩
        obtain ⟨t, ht⟩ := ih (0xFE02#16 + 1#16)
          (State.wrote { s.withScript [] with mem := s.mem.write 0xFE02 (highByte (s.mem.read 0xFE02) ++ k) }
            (putsFormat.bytes (0x00#8 ++ k))) rfl he fun a ha => by
            have hne : a.toNat ≠ 0xFE02 := fun e => ha.2 (BitVec.eq_of_toNat_eq e)
            show (s.mem.write 0xFE02 _).read a.toNat ≠ _
            rw [Memory.read_write_other _ _ hne]
            exact hm a ha
        exact ⟨t, .succ hr hw ht⟩
      · obtain ⟨t, ht⟩ := ih (p + 1#16) (s.wrote (putsFormat.bytes (s.mem.read p.toNat))) hs he hm
        exact ⟨t, .succ (.storage p ⟨h0, h2⟩) (by simpa [putsFormat] using hm p ⟨h0, h2⟩) ht⟩

theorem witness_StringServicesFollowTheirLoops_neverEnds :
    StringNeverEnds putsFormat (endless.reg 0#3) (endless.setReg 7#3 endless.pc) :=
  fun n => goes_on (k := 0x41#8) (by decide) n _ _ rfl rfl fun a _ => endless_read a

/-- ServicesChangeNothingElse: each service completes, and GETC is aborted. -/
theorem witness_ServicesChangeNothingElse :
    (∃ t, exec .getc (fetched 0#16 [] [.key 0x41#8]) = .next t ∧ decide (t.reg 0#3 = 0x41#16) = true) ∧
    (∃ t, exec .inKey (fetched 0#16 [] [.key 0x41#8]) = .next t ∧ decide (t.reg 0#3 = 0x41#16) = true) ∧
    (∃ t, exec .out State.reset = .next t ∧ decide (t.term.output = [0x00#8]) = true) ∧
    (∃ t, exec .puts wrapping = .next t ∧ decide (t.term.output = [0x41#8]) = true) ∧
    (∃ t, exec .putsp packed = .next t ∧ decide (t.term.output = [0x48#8, 0x65#8, 0x6F#8]) = true) ∧
    (∃ t, exec .halt State.reset = .next t ∧ decide (t.status = .halted) = true) ∧
    (∃ t, exec (.trap 0x99#8) State.reset = .next t ∧ decide (t.reg 7#3 = 0x3000#16) = true) ∧
    (∃ t, exec .getc State.reset = .next t ∧ decide (t.status = .aborted 0x2FFF#16) = true) ∧
    isServiceVector 0x99#8 = false :=
  ⟨answers_next (by decide), answers_next (by decide), answers_next (by decide), answers_next (by decide), answers_next (by decide),
    answers_next (by decide), answers_next (by decide), answers_next (by decide), by decide⟩

/-- CancelledInputRollsTheInstructionBack: LD, LDI's pointer and STI's pointer (offset 1 from 0xFE01); LDR (offset 2);
LDI's second read; GETC and IN; by a cancellation and by the end of the stream. -/
theorem witness_CancelledInput :
    (∃ t, ReadCancels (at_ 0xFE01#16 [] [] .z [.cancel])
      ((at_ 0xFE01#16 [] [] .z [.cancel]).pc + (1#9).signExtend 16) t) ∧
    (∃ t, ReadCancels (fetched 0xFE00#16 [] [.quiet])
      ((fetched 0xFE00#16 [] [.quiet]).reg 1#3 + (2#6).signExtend 16) t) ∧
    (∃ p u t, ReadsAs (fetched 0#16 [(0x3003, 0xFE02#16)] [])
      ((fetched 0#16 [(0x3003, 0xFE02#16)] []).pc + (2#9).signExtend 16) p u ∧ ReadCancels u p t) ∧
    (fetched 0#16 [] [.quiet, .cancel, .key 0x41#8]).term.CancelsNext [.key 0x41#8] ∧
    (fetched 0#16 [] [.quiet]).term.CancelsNext [] :=
  ⟨⟨_, rfl, [], ⟨0, .inl rfl⟩, rfl⟩, ⟨_, rfl, [], ⟨1, .inr ⟨rfl, rfl, rfl⟩⟩, rfl⟩,
    ⟨_, _, _, .storage 0x3003#16 (by decide), rfl, [], ⟨0, .inr ⟨rfl, rfl, rfl⟩⟩, rfl⟩,
    ⟨1, .inl rfl⟩, 1, .inr ⟨rfl, rfl, rfl⟩⟩

theorem witness_SilentHostHoldsTheInstruction :
    ReadHolds (silent (at_ 0xFE01#16 [] [] .z [.quiet]))
      ((silent (at_ 0xFE01#16 [] [] .z [.quiet])).pc + (1#9).signExtend 16) ∧
    ReadHolds (silent (fetched 0xFE00#16 [] []))
      ((silent (fetched 0xFE00#16 [] [])).reg 1#3 + (2#6).signExtend 16) ∧
    (∃ p u, ReadsAs (silent (fetched 0#16 [(0x3003, 0xFE02#16)] []))
      ((silent (fetched 0#16 [(0x3003, 0xFE02#16)] [])).pc + (2#9).signExtend 16) p u ∧ ReadHolds u p) ∧
    (silent (fetched 0#16 [] [.quiet])).term.StaysSilent :=
  ⟨⟨rfl, rfl, 1, rfl⟩, ⟨rfl, rfl, 0, rfl⟩, ⟨_, _, .storage 0x3003#16 (by decide), rfl, rfl, 0, rfl⟩, rfl, 1, rfl⟩

/-! ### Witnesses: the loop -/

/-- StepRunsTheDecodedInstruction: from storage, from the top of memory, and from both device registers. -/
theorem witness_StepRunsTheDecodedInstruction :
    (State.reset.status = .running ∧ ReadsAs State.reset State.reset.pc 0x0000#16 State.reset ∧
      decode 0x0000#16 = .br false false false 0#9) ∧
    ReadsAs (at_ 0xFFFF#16 [(0xFFFF, 0xDFFF#16)] [] .z []) 0xFFFF#16 0xDFFF#16 (at_ 0xFFFF#16 [(0xFFFF, 0xDFFF#16)] [] .z []) ∧
    ReadsAs (at_ 0xFE00#16 [] [] .z [.key 0x25#8]) 0xFE00#16 0x8000#16 (at_ 0xFE00#16 [] [] .z [.key 0x25#8]) ∧
    (∃ u, ReadsAs (at_ 0xFE02#16 [] [] .z [.key 0x25#8]) 0xFE02#16 0x0025#16 u) :=
  ⟨⟨rfl, .storage 0x3000#16 (by decide), by decide⟩, .storage 0xFFFF#16 (by decide), .ready 0x25#8 [] rfl, _,
    .data 0x25#8 [] ⟨0, .inl rfl⟩⟩

/-- StepRunsTheDecodedInstruction's example, and StatusChangesOnlyAsListed's HALT. -/
theorem witness_StepRunsTheDecodedInstruction_example :
    (before 0x4805#16 []).status = .running ∧ (before 0x4805#16 []).pc = 0x3000#16 ∧
    (before 0x4805#16 []).mem.read 0x3000 = 0x4805#16 ∧
    (before 0xF025#16 []).status = .running ∧
    ReadsAs (before 0xF025#16 []) (before 0xF025#16 []).pc 0xF025#16 (before 0xF025#16 []) ∧ decode 0xF025#16 = .halt :=
  ⟨rfl, rfl, rfl, rfl, .storage 0x3000#16 (by decide), by decide⟩

theorem witness_FetchFromTheKeyboardCanAbortOrHold :
    (at_ 0xFE02#16 [] [] .z [.cancel]).status = .running ∧
    (∃ t, ReadCancels (at_ 0xFE02#16 [] [] .z [.cancel]) (at_ 0xFE02#16 [] [] .z [.cancel]).pc t) ∧
    ReadHolds (silent (at_ 0xFE02#16 [] [] .z [])) (silent (at_ 0xFE02#16 [] [] .z [])).pc :=
  ⟨rfl, ⟨_, rfl, [], ⟨0, .inl rfl⟩, rfl⟩, rfl, rfl, 0, rfl⟩

/-- IllegalWordsFaultAtTheirFetchAddress: both opcodes at the ends of their words, the vectors at the ends of their ranges, and
the fetch of the first and the last of these words. -/
theorem witness_IllegalWordsFaultAtTheirFetchAddress :
    (∀ w ∈ [0x8000#16, 0x8FFF#16, 0xD000#16, 0xDFFF#16], w.extractLsb' 12 4 = 8#4 ∨ w.extractLsb' 12 4 = 13#4) ∧
    (∀ w ∈ [0xF000#16, 0xF01F#16, 0xF026#16, 0xFFFF#16],
      w.extractLsb' 12 4 = 15#4 ∧ (w.toNat % 256 < 0x20 ∨ 0x25 < w.toNat % 256)) ∧
    ((before 0x8000#16 []).status = .running ∧
      ReadsAs (before 0x8000#16 []) (before 0x8000#16 []).pc 0x8000#16 (before 0x8000#16 [])) ∧
    ((before 0xF01F#16 []).status = .running ∧
      ReadsAs (before 0xF01F#16 []) (before 0xF01F#16 []).pc 0xF01F#16 (before 0xF01F#16 [])) ∧
    ((before 0xF026#16 []).status = .running ∧
      ReadsAs (before 0xF026#16 []) (before 0xF026#16 []).pc 0xF026#16 (before 0xF026#16 [])) :=
  ⟨by simp, by simp, ⟨rfl, .storage 0x3000#16 (by decide)⟩, ⟨rfl, .storage 0x3000#16 (by decide)⟩, rfl,
    .storage 0x3000#16 (by decide)⟩

/-- NoStepAfterTheRunEnds: its four cases. -/
theorem witness_NoStepAfterTheRunEnds :
    (after (before 0xF025#16 []) fun t => t.status == .halted) = true ∧
    (after (before 0xD000#16 []) fun t => t.status == .faulted (.illegalOpcode 13#4) 0x3000#16) = true ∧
    (after (before 0xF020#16 []) fun t => t.status == .aborted 0x3000#16 && t.term.resumes == 0) = true ∧
    (after { before 0xF020#16 [] with term := { Terminal.reset with resumes := 1 } }
      fun t => t.status == .aborted 0x3000#16 && t.term.resumes == 1) = true := by decide

/-- StoreIsSeenByTheNextFetch, as V-L5. -/
theorem witness_StoreIsSeenByTheNextFetch :
    (before 0x3000#16 [(0#3, 0xF025#16)]).status = .running ∧ (before 0x3000#16 [(0#3, 0xF025#16)]).mem.wf = true ∧
    Ordinary (before 0x3000#16 [(0#3, 0xF025#16)]).pc ∧ Ordinary ((before 0x3000#16 [(0#3, 0xF025#16)]).pc + 1#16) ∧
    decode ((before 0x3000#16 [(0#3, 0xF025#16)]).mem.read (before 0x3000#16 [(0#3, 0xF025#16)]).pc.toNat) =
      .st 0#3 0#9 := by decide

/-- The invariant holds in any running state with a canonical memory and the default parameters. -/
theorem before_inv (w : Word) (regs : List (RegField × Word)) (hm : (before w regs).mem.wf = true)
    (hs : (before w regs).status = .running) (hp : (before w regs).params.Wf) : (before w regs).Inv where
  memory := hm
  status := by simp [State.StatusAgrees, hs]
  params := hp

/-- StepKeepsTheInvariant and StatusChangesOnlyAsListed: steps from states with the invariant, to each status. -/
theorem witness_StepKeepsTheInvariant :
    ((before 0x3402#16 [(2#3, 0xBEEF#16)]).Inv ∧
      ∃ t, step (before 0x3402#16 [(2#3, 0xBEEF#16)]) = .next t ∧ decide (t.status = .running) = true) ∧
    ((before 0xF025#16 []).Inv ∧ ∃ t, step (before 0xF025#16 []) = .next t ∧ decide (t.status = .halted) = true) ∧
    ((before 0x8000#16 []).Inv ∧
      ∃ t, step (before 0x8000#16 []) = .next t ∧ decide (t.status = .faulted (.illegalOpcode 8#4) 0x3000#16) = true) ∧
    ((before 0xF099#16 []).Inv ∧
      ∃ t, step (before 0xF099#16 []) = .next t ∧ decide (t.status = .faulted (.illegalTrap 0x99#8) 0x3000#16) = true) ∧
    ((before 0xF020#16 []).Inv ∧
      ∃ t, step (before 0xF020#16 []) = .next t ∧ decide (t.status = .aborted 0x3000#16) = true) :=
  ⟨⟨before_inv _ _ (by decide) rfl (by decide), after_next (by decide)⟩,
    ⟨before_inv _ _ (by decide) rfl (by decide), after_next (by decide)⟩,
    ⟨before_inv _ _ (by decide) rfl (by decide), after_next (by decide)⟩,
    ⟨before_inv _ _ (by decide) rfl (by decide), after_next (by decide)⟩,
    ⟨before_inv _ _ (by decide) rfl (by decide), after_next (by decide)⟩⟩

/-- StatusChangesOnlyAsListed: an aborted session is resumed. -/
theorem witness_StatusChangesOnlyAsListed_resumption :
    ∃ t, step { before 0xF020#16 [] with status := .aborted 0x3000#16, term := { Terminal.reset with resumes := 1 } } =
      .next t ∧ decide (t.status = .running) = true :=
  after_next (by decide)

/-- AbortedStepLeavesTheCoreAsBefore: IN writes its prompt and is then cancelled. -/
theorem witness_AbortedStepLeavesTheCoreAsBefore :
    (before 0xF023#16 []).status = .running ∧ ∃ t, step (before 0xF023#16 []) = .next t ∧
      decide (t.status = .aborted 0x3000#16 ∧ t.term.output = t.params.inPrompt) = true :=
  ⟨rfl, after_next (by decide)⟩

/-! ### Witnesses: rules over all instructions -/

theorem witness_OnlyTheListedInstructionsWriteCond :
    (∃ t, exec (.st 0#3 0#9) State.reset = .next t ∧ decide (t.cond = .z) = true) ∧
    ¬ (Instr.st 0#3 0#9).mayWriteCond ∧
    (∃ t, exec (.trap 0x21#8) State.reset = .next t ∧ decide (t.reg 7#3 = 0x3000#16) = true) ∧
    ¬ (Instr.trap 0x21#8).mayWriteCond :=
  ⟨answers_next (by decide), id, answers_next (by decide), by simp [Instr.mayWriteCond]⟩

theorem witness_OnlyTheListedInstructionsWriteEachRegister :
    (∃ t, exec (.addImm 0#3 1#3 0x1F#5) State.reset = .next t ∧ decide (t.reg 0#3 = 0xFFFF#16) = true) ∧
    ¬ (Instr.addImm 0#3 1#3 0x1F#5).mayWriteReg 1#3 ∧
    (∃ t, exec .getc (fetched 0#16 [] [.key 0x41#8]) = .next t ∧ decide (t.reg 0#3 = 0x41#16) = true) ∧
    ¬ Instr.getc.mayWriteReg 1#3 :=
  ⟨answers_next (by decide), by simp [Instr.mayWriteReg], answers_next (by decide), by simp [Instr.mayWriteReg]⟩

theorem witness_OnlyStoresWriteMemory :
    (∃ t, exec (.ldr 0#3 1#3 2#6) (fetched 0xFE00#16 bothEnds [.key 0x41#8]) = .next t ∧
      decide (t.mem.read 0xFE02 = 0x0041#16) = true) ∧
    ¬ (Instr.ldr 0#3 1#3 2#6).isStore ∧ (fetched 0xFE00#16 bothEnds [.key 0x41#8]).mem.wf = true :=
  ⟨answers_next (by decide), id, by decide⟩

theorem witness_OnlyControlTransfersMovePc :
    (∃ t, exec .getc (fetched 0#16 [] [.key 0x41#8]) = .next t ∧ decide (t.pc = 0x3001#16) = true) ∧
    (∃ t, exec .getc (fetched 0#16 [] [.cancel]) = .next t ∧ decide (t.pc = 0x3000#16) = true) ∧
    ¬ Instr.getc.movesPc :=
  ⟨answers_next (by decide), answers_next (by decide), id⟩

/-- InstructionsStopOnlyWhenHeldOrEndless: GETC before a silent host; PUTS in `endless` is the other case
(PutsWithoutATerminatorNeverEnds). -/
theorem witness_InstructionsStopOnlyWhenHeldOrEndless : exec .getc (silent State.reset) = .fault .heldForKey := rfl

/-- OutputIsOnlyAppendedTo: OUT, and a key taken. -/
theorem witness_OutputIsOnlyAppendedTo :
    (∃ t, step (before 0xF021#16 [(0#3, 0x1241#16)]) = .next t ∧ decide (t.term.output = [0x41#8]) = true) ∧
    (∃ t, step (at_ 0x3000#16 [(0x3000, 0xF020#16)] [] .z [.quiet, .key 0x41#8, .cancel]) = .next t ∧
      decide (t.term.script = [.cancel]) = true) :=
  ⟨after_next (by decide), after_next (by decide)⟩

/-! ### Witnesses: loading and the session -/

theorem witness_LoadPutsTheImageAtItsOrigin :
    bothEnds.wf = true ∧ (0xFFFF#16).toNat ≤ (0xFFFF#16).toNat ∧
    (0xFFFF#16).toNat - (0xFFFF#16).toNat < [0x1111#16, 0x2222#16].length := by decide

/-- SessionStartsAtTheEntryPoint and MemoryIsZeroAtReset. -/
theorem witness_SessionStartsAtTheEntryPoint :
    imageWords [0x40#8, 0x00#8, 0x12#8, 0x34#8] = some [0x4000#16, 0x1234#16] := by decide

theorem witness_ExitStatusesTellTheEndings :
    Params.default.Wf ∧ State.reset.params = Params.default ∧ State.reset.exitStatus = none ∧
    { State.reset with status := .halted }.exitStatus = some 0 ∧
    { State.reset with status := .faulted (.illegalOpcode 8#4) 0#16 }.exitStatus ≠
      { State.reset with status := .faulted (.illegalTrap 0#8) 0#16 }.exitStatus ∧
    { State.reset with status := .aborted 0#16 }.exitStatus = none := by decide

end Sys2Proof.Tests
end

/-! PROOF. Sign and zero extension (00_scope.md R9), at every width up to that of a word. -/

namespace Sys2Proof.Machine

/-- Bit by bit: the field below its width, its sign bit above (R9). -/
theorem getLsbD_sext (v : BitVec n) {i : Nat} (hi : i < 16) :
    (sext v).getLsbD i = if i < n then v.getLsbD i else v.msb := by
  simp only [sext, BitVec.getLsbD_signExtend, hi, decide_true, Bool.true_and]

/-- The rule's formula: where the sign bit is set, the mask of the bits from `n` up is or-ed in (R9). -/
theorem sext_eq_or_mask (v : BitVec n) :
    sext v = if v.msb then v.setWidth 16 ||| (BitVec.allOnes 16 <<< n) else v.setWidth 16 := by
  apply BitVec.eq_of_getLsbD_eq
  intro i hi
  have hmask : (BitVec.allOnes 16 <<< n).getLsbD i = decide (n ≤ i) := by
    rw [BitVec.getLsbD_shiftLeft, BitVec.getLsbD_allOnes]
    by_cases hn : i < n
    · simp [hn]
    · have hlt : i - n < 16 := by omega
      simp [hi, hn, hlt, Nat.le_of_not_lt hn]
  rw [getLsbD_sext v hi, apply_ite (BitVec.getLsbD · i), BitVec.getLsbD_or, BitVec.getLsbD_setWidth, hmask]
  by_cases hn : i < n
  · simp [hn, hi]
  · simp [hn, Nat.le_of_not_lt hn]

/-- The word has the field's value as a signed number. -/
theorem toInt_sext (v : BitVec n) (hn : n ≤ 16) : (sext v).toInt = v.toInt :=
  BitVec.toInt_signExtend_of_le hn

theorem getLsbD_zext (b : Byte) (i : Nat) : (zext b).getLsbD i = (decide (i < 8) && b.getLsbD i) := by
  rw [zext, BitVec.getLsbD_setWidth]
  by_cases h : i < 8
  · have h16 : i < 16 := by omega
    simp only [h, h16]
  · simp [h, BitVec.getLsbD_of_ge b i (by omega)]

/-- Settles O7, from the rule's formula, value and bits at every width; each mask is the one of its width. -/
theorem signExtensionFollowsItsRule : Obligations.SignExtensionFollowsItsRule := by
  refine ⟨sext_eq_or_mask, sext_eq_or_mask, sext_eq_or_mask, sext_eq_or_mask, fun n v hn => ?_, getLsbD_zext⟩
  refine ⟨toInt_sext v (by omega), fun i hi => ?_⟩
  rw [getLsbD_sext v hi, BitVec.msb_eq_getLsbD_last]
  split <;> simp

end Sys2Proof.Machine

/-! PROOF. The terminal only moves forward (R11, R224): every operation appends to the output and takes the host's answers
from the front of the script. One rule per shared operation, then one line per instruction. -/

namespace Sys2Proof.Machine

/-! ### The relation -/

/-- `u` is a terminal that `t` can become: the output has grown, the script has lost a front part, and nothing else the host
decides has changed, save that it may have resumed the session. -/
structure Terminal.Forward (t u : Terminal) : Prop where
  output : t.output <+: u.output
  script : u.script <:+ t.script
  atEnd : u.atEnd = t.atEnd
  resumes : u.resumes ≤ t.resumes

namespace Terminal.Forward

theorem refl (t : Terminal) : t.Forward t := ⟨List.prefix_rfl, List.suffix_rfl, rfl, Nat.le_refl _⟩

theorem trans {t u v : Terminal} (h : t.Forward u) (h' : u.Forward v) : t.Forward v :=
  ⟨h.output.trans h'.output, h'.script.trans h.script, h'.atEnd.trans h.atEnd, Nat.le_trans h'.resumes h.resumes⟩

theorem outAll (t : Terminal) (bs : List Byte) : t.Forward (t.outAll bs) :=
  ⟨List.prefix_append _ _, List.suffix_rfl, rfl, Nat.le_refl _⟩

theorem out (t : Terminal) (b : Byte) : t.Forward (t.out b) := outAll t [b]

theorem withScript {t : Terminal} {r : List KeyEvent} (h : r <:+ t.script) : t.Forward (t.withScript r) :=
  ⟨List.prefix_rfl, h, rfl, Nat.le_refl _⟩

end Terminal.Forward

/-- The terminal of `s` can become that of `t`, and the parameters are as before. -/
structure State.Forward (s t : State) : Prop where
  term : s.term.Forward t.term
  params : t.params = s.params

namespace State.Forward

theorem of_eq {s t : State} (ht : t.term = s.term) (hp : t.params = s.params) : s.Forward t :=
  ⟨ht ▸ .refl _, hp⟩

theorem trans {s t u : State} (h : s.Forward t) (h' : t.Forward u) : s.Forward u :=
  ⟨h.term.trans h'.term, h'.params.trans h.params⟩

end State.Forward

/-- Whatever a read gives, it leaves a terminal that `s` can come to. -/
def Read.Forward (s : State) : Read α → Prop
  | .value _ t => s.Forward t
  | .cancelled t => s.term.Forward t
  | .held => True

theorem Read.Forward.trans {s t : State} {r : Read α} (h : s.Forward t) (hr : r.Forward t) : r.Forward s := by
  cases r with
  | value v u => exact State.Forward.trans h hr
  | cancelled u => exact Terminal.Forward.trans h.term hr
  | held => trivial

/-- Whatever next state a result answers, `s` can come to its terminal. -/
def ForwardResult (s : State) (r : Result) : Prop := ∀ t, r = .next t → s.Forward t

theorem ForwardResult.next {s t : State} (h : s.Forward t) : ForwardResult s (.next t) := by
  rintro _ ⟨⟩; exact h

/-- A result that leaves terminal and parameters alone. -/
theorem ForwardResult.of_eq {s t : State} (ht : t.term = s.term) (hp : t.params = s.params) : ForwardResult s (.next t) :=
  .next (.of_eq ht hp)

/-! ### The shared operations -/

theorem Terminal.NextKeyIs.suffix {t : Terminal} {k : Byte} {r : List KeyEvent} (h : t.NextKeyIs k r) : r <:+ t.script := by
  obtain ⟨n, hs | ⟨-, -, rfl⟩⟩ := h
  · exact hs ▸ (List.suffix_cons _ r).trans (List.suffix_append _ _)
  · exact List.nil_suffix

theorem Terminal.CancelsNext.suffix {t : Terminal} {r : List KeyEvent} (h : t.CancelsNext r) : r <:+ t.script := by
  obtain ⟨n, hs | ⟨-, -, rfl⟩⟩ := h
  · exact hs ▸ (List.suffix_cons _ r).trans (List.suffix_append _ _)
  · exact List.nil_suffix

theorem readKey_forward (s : State) : s.readKey.Forward s := by
  obtain ⟨k, r, hk, hr⟩ | ⟨r, hc, hr⟩ | ⟨-, hr⟩ := state_readKey_cases s <;> rw [hr]
  · exact ⟨.withScript hk.suffix, rfl⟩
  · exact Terminal.Forward.withScript hc.suffix
  · trivial

theorem keyAvail_forward (t : Terminal) : t.Forward t.keyAvail.2 := by
  obtain ⟨_, _, -, h⟩ | ⟨r, hs, h⟩ | ⟨_, -, h⟩ | ⟨-, h⟩ := keyAvail_cases t <;> rw [h]
  · exact .refl t
  · exact .withScript (hs ▸ List.suffix_cons _ r)
  · exact .refl t
  · exact .refl t

theorem kbdrRead_forward (s : State) : s.kbdrRead.Forward s := by
  have hk := readKey_forward s
  unfold State.kbdrRead
  split
  next k t hr =>
    rw [hr] at hk
    exact .trans hk (.of_eq rfl rfl)
  next t hr =>
    rw [hr] at hk
    exact hk
  next => trivial

/-- A bridged read, device or not, moves the terminal forward (R43 to R45). -/
theorem memRead_forward (s : State) (a : Word) : (s.memRead a).Forward s := by
  unfold State.memRead
  split
  · exact ⟨keyAvail_forward s.term, rfl⟩
  · split
    · exact kbdrRead_forward s
    · exact State.Forward.of_eq rfl rfl

/-- Going on with a read moves the terminal forward where the read does and what follows it does; a cancellation rolls back
to an entry state with the parameters of `s`, and leaves the terminal as the read did. -/
theorem andThen_forward {s entry : State} {r : Read α} {k : α → State → Result} (hp : entry.params = s.params)
    (hr : r.Forward s) (hk : ∀ v t, s.Forward t → ForwardResult s (k v t)) : ForwardResult s (andThen entry r k) := by
  cases r with
  | value v t => exact hk v t hr
  | cancelled t => exact .next ⟨hr, hp⟩
  | held => nofun

theorem walk_forward (emit : Word → Option (List Byte)) (fuel : Nat) {p : Word} {s : State} {r : Read Unit}
    (h : walk emit fuel p s = some r) : r.Forward s := by
  induction fuel generalizing p s with
  | zero => cases h
  | succ n ih =>
    have hr := memRead_forward s p
    unfold walk at h
    cases hm : s.memRead p with
    | value w t =>
      rw [hm] at h hr
      have hst : s.Forward t := hr
      cases he : emit w with
      | none => simp only [he, Option.some.injEq] at h; exact h ▸ hst
      | some bs =>
        simp only [he] at h
        have hout : t.Forward { t with term := t.term.outAll bs } := ⟨.outAll t.term bs, rfl⟩
        exact .trans hst (.trans hout (ih h))
    | cancelled t => rw [hm] at h hr; cases h; exact hr
    | held => rw [hm] at h; cases h; trivial

/-! ### The trap services -/

/-- A service moves the terminal of the state it is called in forward, wherever a cancellation leads back to. -/
def ForwardService (service : State → State → Result) : Prop :=
  ∀ entry s : State, entry.params = s.params → ForwardResult s (service entry s)

theorem serviceGetc_forward : ForwardService serviceGetc := fun _ s hp =>
  andThen_forward hp (readKey_forward s) fun _ _ h => .next (h.trans (.of_eq rfl rfl))

theorem serviceOut_forward : ForwardService serviceOut := fun _ s _ => .next ⟨.out s.term _, rfl⟩

theorem serviceString_forward (emit : Word → Option (List Byte)) : ForwardService (serviceString emit) := by
  intro entry s hp
  unfold serviceString
  split
  next r hw => exact andThen_forward hp (walk_forward emit _ hw) fun _ _ h => .next h
  next => nofun

theorem serviceIn_forward : ForwardService serviceIn := by
  intro entry s hp
  have hprompt : s.Forward { s with term := s.term.outAll s.params.inPrompt } := ⟨.outAll _ _, rfl⟩
  exact andThen_forward hp (.trans hprompt (readKey_forward _)) fun b t h => .next (h.trans ⟨.out t.term b, rfl⟩)

theorem serviceHalt_forward : ForwardService serviceHalt := fun _ s _ => .next ⟨.outAll s.term _, rfl⟩

theorem serviceIllegal_forward (v : BitVec 8) : ForwardService (serviceIllegal v) := fun _ _ _ => .of_eq rfl rfl

theorem serviceOf_forward (v : BitVec 8) : ForwardService (serviceOf v) := by
  unfold serviceOf
  split_ifs
  · exact serviceGetc_forward
  · exact serviceOut_forward
  · exact serviceString_forward putsEmit
  · exact serviceIn_forward
  · exact serviceString_forward putspEmit
  · exact serviceHalt_forward
  · exact serviceIllegal_forward v

/-- The link write before a service leaves the terminal alone (R170). -/
theorem trapTo_forward {service : State → State → Result} (h : ForwardService service) (s : State) :
    ForwardResult s (trapTo service s) := fun t ht =>
  .trans (.of_eq (State.link_term s) (State.link_params s)) (h s s.link (State.link_params s).symm t ht)

/-! ### Instructions and steps -/

/-- Every instruction moves the terminal forward. -/
theorem exec_forward (i : Instr) (s : State) : ForwardResult s (exec i s) := by
  have hload (a : Word) (dr : RegField) :
      ForwardResult s (andThen s (s.memRead a) fun v t => .next (t.writeResult dr v)) :=
    andThen_forward rfl (memRead_forward s a) fun _ _ h => .next (h.trans (.of_eq rfl rfl))
  cases i with
  | br n z p off9 =>
    show ForwardResult s (execBr n z p off9 s)
    unfold execBr
    split <;> exact .of_eq rfl rfl
  | jsr off11 => exact .of_eq rfl rfl
  | jsrr baseR => exact .of_eq rfl rfl
  | jmp baseR => exact .of_eq rfl rfl
  | addReg dr sr1 sr2 => exact .of_eq rfl rfl
  | addImm dr sr1 imm5 => exact .of_eq rfl rfl
  | andReg dr sr1 sr2 => exact .of_eq rfl rfl
  | andImm dr sr1 imm5 => exact .of_eq rfl rfl
  | not dr sr => exact .of_eq rfl rfl
  | lea dr off9 => exact .of_eq rfl rfl
  | rti => exact .of_eq rfl rfl
  | reserved => exact .of_eq rfl rfl
  | st sr off9 => exact .of_eq (State.memWrite_term ..) (State.memWrite_params ..)
  | str sr baseR off6 => exact .of_eq (State.memWrite_term ..) (State.memWrite_params ..)
  | ld dr off9 => exact hload _ dr
  | ldr dr baseR off6 => exact hload _ dr
  | ldi dr off9 =>
    exact andThen_forward rfl (memRead_forward s _) fun p t h =>
      andThen_forward rfl (.trans h (memRead_forward t p)) fun _ _ h' => .next (h'.trans (.of_eq rfl rfl))
  | sti sr off9 =>
    exact andThen_forward rfl (memRead_forward s _) fun _ _ h =>
      .next (h.trans (.of_eq (State.memWrite_term ..) (State.memWrite_params ..)))
  | trap v => exact trapTo_forward (serviceOf_forward v) s
  | getc => exact trapTo_forward serviceGetc_forward s
  | out => exact trapTo_forward serviceOut_forward s
  | puts => exact trapTo_forward (serviceString_forward _) s
  | inKey => exact trapTo_forward serviceIn_forward s
  | putsp => exact trapTo_forward (serviceString_forward _) s
  | halt => exact trapTo_forward serviceHalt_forward s

/-- Every step moves the terminal forward: a resumption uses up one of the host's, a fetch is a bridged read. -/
theorem step_forward {s t : State} (h : step s = .next t) : s.Forward t := by
  have hread := memRead_forward s s.pc
  obtain ⟨_, n, -, hn, rfl⟩ | ⟨-, w, u, hr, hx⟩ | ⟨-, t', hr, rfl⟩ := step_next h
  · exact ⟨⟨List.prefix_rfl, List.suffix_rfl, rfl, hn ▸ Nat.le_succ n⟩, rfl⟩
  · rw [hr] at hread
    have hadvance : u.Forward u.advance := .of_eq rfl rfl
    exact .trans hread (.trans hadvance (exec_forward (decode w) u.advance t hx))
  · rw [hr] at hread
    exact ⟨hread, rfl⟩

/-- Settles O55: what a step may do to the terminal, from `step_forward`. -/
theorem outputIsOnlyAppendedTo : Obligations.OutputIsOnlyAppendedTo := by
  intro s t h
  obtain ⟨⟨⟨bs, hout⟩, ⟨used, hscript⟩, hend, hres⟩, hparams⟩ := step_forward h
  exact ⟨⟨bs, hout.symm⟩, ⟨used, hscript.symm⟩, hend, hres, hparams⟩

end Sys2Proof.Machine

/-! PROOF. The bridged read as the relation of Safety.lean, each way (R43 to R45), and what it may change. -/

namespace Sys2Proof.Machine

/-! ### The read and the relation -/

/-- Any address is KBSR_ADDR, KBDR_ADDR, or ordinary storage (R42). -/
theorem address_cases (a : Word) : a = 0xFE00#16 ∨ a = 0xFE02#16 ∨ Ordinary a := by
  unfold Ordinary
  tauto

theorem memRead_ordinary (s : State) {a : Word} (h : Ordinary a) : s.memRead a = .value (s.mem.read a.toNat) s := by
  have hkbsr : a ≠ Config.kbsrAddr := h.1
  have hkbdr : a ≠ Config.kbdrAddr := h.2
  rw [State.memRead, if_neg hkbsr, if_neg hkbdr]

theorem memRead_kbsr (s : State) : s.memRead 0xFE00#16 = s.kbsrRead := rfl

theorem memRead_kbdr (s : State) : s.memRead 0xFE02#16 = s.kbdrRead := rfl

/-- A read of KBSR_ADDR always gives a word (R44). -/
theorem memRead_kbsr_readsAs (s : State) : ∃ v u, ReadsAs s 0xFE00#16 v u ∧ s.memRead 0xFE00#16 = .value v u := by
  rw [memRead_kbsr, State.kbsrRead]
  obtain ⟨k, r, hs, hk⟩ | ⟨r, hs, hk⟩ | ⟨r, hs, hk⟩ | ⟨hs, hk⟩ := keyAvail_cases s.term <;> rw [hk]
  · exact ⟨_, _, .ready k r hs, rfl⟩
  · exact ⟨_, _, .notReady r hs, rfl⟩
  · exact ⟨_, _, .cancelling r hs, rfl⟩
  · cases he : s.term.atEnd with
    | closed => exact ⟨_, _, .ended hs (.inl he), rfl⟩
    | silent => exact ⟨_, _, .ended hs (.inr he), rfl⟩
    | typing k => exact ⟨_, _, .typing k hs he, rfl⟩

theorem memRead_kbdr_of_key {s : State} {k : Byte} {r : List KeyEvent} (h : s.readKey = .value k (s.withScript r)) :
    s.memRead 0xFE02#16 = .value (0x00#8 ++ k)
      { s.withScript r with mem := s.mem.write 0xFE02 (highByte (s.mem.read 0xFE02) ++ k) } := by
  rw [memRead_kbdr, State.kbdrRead, h]
  exact congrArg (Read.value · _) (zext_eq_wordOf k)

/-- What a read gives, in the three cases. -/
theorem memRead_cases (s : State) (a : Word) :
    (∃ v u, ReadsAs s a v u ∧ s.memRead a = .value v u) ∨ (∃ t, ReadCancels s a t ∧ s.memRead a = .cancelled t) ∨
    (ReadHolds s a ∧ s.memRead a = .held) := by
  obtain rfl | rfl | ha := address_cases a
  · exact .inl (memRead_kbsr_readsAs s)
  · obtain ⟨k, r, hk, hr⟩ | ⟨r, hc, hr⟩ | ⟨hs, hr⟩ := state_readKey_cases s
    · exact .inl ⟨_, _, .data k r hk, memRead_kbdr_of_key hr⟩
    · exact .inr (.inl ⟨_, ⟨rfl, r, hc, rfl⟩, by rw [memRead_kbdr, State.kbdrRead, hr]⟩)
    · exact .inr (.inr ⟨⟨rfl, hs⟩, by rw [memRead_kbdr, State.kbdrRead, hr]⟩)
  · exact .inl ⟨_, _, .storage a ha, memRead_ordinary s ha⟩

theorem readsAs_of_memRead {s u : State} {a v : Word} (h : s.memRead a = .value v u) : ReadsAs s a v u := by
  obtain ⟨v', u', hr, hm⟩ | ⟨t, -, hm⟩ | ⟨-, hm⟩ := memRead_cases s a <;> rw [hm] at h
  · obtain ⟨rfl, rfl⟩ := Read.value.inj h
    exact hr
  · cases h
  · cases h

theorem readCancels_of_memRead {s : State} {a : Word} {t : Terminal} (h : s.memRead a = .cancelled t) :
    ReadCancels s a t := by
  obtain ⟨v', u', -, hm⟩ | ⟨t', hc, hm⟩ | ⟨-, hm⟩ := memRead_cases s a <;> rw [hm] at h
  · cases h
  · exact Read.cancelled.inj h ▸ hc
  · cases h

/-- The converse of `readsAs_of_memRead`: a read the rules allow is the one the model makes. -/
theorem ReadsAs.memRead {s u : State} {a v : Word} (h : ReadsAs s a v u) : s.memRead a = .value v u := by
  cases h with
  | storage a ha => exact memRead_ordinary s ha
  | ready k r hs => rw [memRead_kbsr, State.kbsrRead, Terminal.keyAvail, hs]; rfl
  | notReady r hs => rw [memRead_kbsr, State.kbsrRead, Terminal.keyAvail, hs]; rfl
  | cancelling r hs => rw [memRead_kbsr, State.kbsrRead, Terminal.keyAvail, hs]; rfl
  | ended hs he => rw [memRead_kbsr, State.kbsrRead, Terminal.keyAvail, hs]; rcases he with he | he <;> rw [he] <;> rfl
  | typing k hs he => rw [memRead_kbsr, State.kbsrRead, Terminal.keyAvail, hs, he]; rfl
  | data k r hk =>
    refine memRead_kbdr_of_key ?_
    rw [State.readKey, readKey_key.mpr hk]
    rfl

/-! ### What reads and output may change -/

/-- What bridged reads and output bytes, in any number, may change on the way from `s` to `u`: the terminal, which moves
forward, and the low byte of the keyboard data backing cell (R45, log 14). -/
structure InputFrame (s u : State) : Prop where
  regs : u.regs = s.regs
  pc : u.pc = s.pc
  cond : u.cond = s.cond
  status : u.status = s.status
  forward : s.Forward u
  resumes : u.term.resumes = s.term.resumes
  mem : ∀ b, b ≠ 0xFE02 → u.mem.read b = s.mem.read b
  memWf : s.mem.wf = true → u.mem.wf = true
  high : s.mem.wf = true → highByte (u.mem.read 0xFE02) = highByte (s.mem.read 0xFE02)

namespace InputFrame

/-- Whatever moves the terminal forward and leaves the core alone. -/
theorem withTerm {s : State} {x : Terminal} (h : s.term.Forward x) (hr : x.resumes = s.term.resumes) :
    InputFrame s { s with term := x } :=
  ⟨rfl, rfl, rfl, rfl, ⟨h, rfl⟩, hr, fun _ _ => rfl, id, fun _ => rfl⟩

theorem refl (s : State) : InputFrame s s := withTerm (.refl s.term) rfl

theorem trans {s t u : State} (h : InputFrame s t) (h' : InputFrame t u) : InputFrame s u where
  regs := h'.regs.trans h.regs
  pc := h'.pc.trans h.pc
  cond := h'.cond.trans h.cond
  status := h'.status.trans h.status
  forward := h.forward.trans h'.forward
  resumes := h'.resumes.trans h.resumes
  mem b hb := (h'.mem b hb).trans (h.mem b hb)
  memWf := h'.memWf ∘ h.memWf
  high hw := (h'.high (h.memWf hw)).trans (h.high hw)

theorem withScript {s : State} {r : List KeyEvent} (h : r <:+ s.term.script) : InputFrame s (s.withScript r) :=
  withTerm (.withScript h) rfl

theorem storeBackingCell (s : State) (b : Byte) : InputFrame s (s.storeBackingCell b) where
  regs := rfl
  pc := rfl
  cond := rfl
  status := rfl
  forward := .of_eq rfl rfl
  resumes := rfl
  mem _ hb := Memory.read_write_other _ _ hb
  memWf h := Memory.wf_write _ h (by decide)
  high h := (congrArg highByte (Memory.read_write_same _ _ h)).trans (highByte_wordOf _ _)

end InputFrame

theorem ReadsAs.inputFrame {s u : State} {a v : Word} (h : ReadsAs s a v u) : InputFrame s u := by
  cases h with
  | storage _ _ => exact .refl s
  | ready _ _ _ => exact .refl s
  | notReady r hs => exact .withScript (hs ▸ List.suffix_cons _ r)
  | cancelling _ _ => exact .refl s
  | ended _ _ => exact .refl s
  | typing _ _ _ => exact .refl s
  | data k r hk => exact .trans (.withScript hk.suffix) (.storeBackingCell (s.withScript r) k)

theorem memRead_inputFrame {s u : State} {a v : Word} (h : s.memRead a = .value v u) : InputFrame s u :=
  (readsAs_of_memRead h).inputFrame

/-! ### Cancellation -/

/-- From `t` the terminal has moved forward to one whose next keystroke read is cancelled, and `t'` is what that read
leaves (R213). -/
def Terminal.CancelledTo (t t' : Terminal) : Prop :=
  ∃ x r, t.Forward x ∧ x.resumes = t.resumes ∧ x.CancelsNext r ∧ t' = x.withScript r

theorem Terminal.CancelsNext.cancelledTo {t : Terminal} {r : List KeyEvent} (h : t.CancelsNext r) :
    t.CancelledTo (t.withScript r) :=
  ⟨t, r, .refl t, rfl, h, rfl⟩

theorem InputFrame.cancelledTo {s u : State} {t' : Terminal} (h : InputFrame s u) (hc : u.term.CancelledTo t') :
    s.term.CancelledTo t' := by
  obtain ⟨x, r, hf, hr, hx, rfl⟩ := hc
  exact ⟨x, r, h.forward.term.trans hf, hr.trans h.resumes, hx, rfl⟩

/-- A cancellation comes from an item of the script or from the end of the stream. -/
theorem Terminal.CancelledTo.cause {t t' : Terminal} (h : t.CancelledTo t') :
    KeyEvent.cancel ∈ t.script ∨ t.atEnd = .closed := by
  obtain ⟨x, r, hf, -, ⟨n, hs | ⟨-, he, -⟩⟩, -⟩ := h
  · exact .inl (hf.script.subset (by simp [hs]))
  · exact .inr (hf.atEnd.symm.trans he)

theorem Terminal.CancelledTo.resumes {t t' : Terminal} (h : t.CancelledTo t') : t'.resumes = t.resumes := by
  obtain ⟨x, r, -, hr, -, rfl⟩ := h
  exact hr

/-- What a read made in `s` leaves: a state within `InputFrame`, or the terminal after a cancellation by the host. -/
def Read.Leaves (s : State) : Read α → Prop
  | .value _ u => InputFrame s u
  | .cancelled t => s.term.CancelledTo t
  | .held => True

theorem Read.Leaves.trans {s t : State} {r : Read α} (h : InputFrame s t) (hr : r.Leaves t) : r.Leaves s := by
  cases r with
  | value v u => exact InputFrame.trans h hr
  | cancelled u => exact h.cancelledTo hr
  | held => trivial

theorem readKey_leaves (s : State) : s.readKey.Leaves s := by
  obtain ⟨k, r, hk, hr⟩ | ⟨r, hc, hr⟩ | ⟨-, hr⟩ := state_readKey_cases s <;> rw [hr]
  · exact InputFrame.withScript hk.suffix
  · exact hc.cancelledTo
  · trivial

/-- A key that is read comes out of the script, and nothing else changes (R11). -/
theorem readKey_withScript {s u : State} {k : Byte} (h : s.readKey = .value k u) : ∃ r, u = s.withScript r := by
  obtain ⟨k', r, -, hr⟩ | ⟨r, -, hr⟩ | ⟨-, hr⟩ := state_readKey_cases s <;> rw [hr] at h
  · exact ⟨r, (Read.value.inj h).2.symm⟩
  · cases h
  · cases h

theorem memRead_leaves (s : State) (a : Word) : (s.memRead a).Leaves s := by
  obtain ⟨v, u, hr, hm⟩ | ⟨t, ⟨-, r, hc, rfl⟩, hm⟩ | ⟨-, hm⟩ := memRead_cases s a <;> rw [hm]
  · exact hr.inputFrame
  · exact hc.cancelledTo
  · trivial

theorem walk_leaves (emit : Word → Option (List Byte)) (fuel : Nat) {p : Word} {s : State} {r : Read Unit}
    (h : walk emit fuel p s = some r) : r.Leaves s := by
  induction fuel generalizing p s with
  | zero => cases h
  | succ n ih =>
    have hr := memRead_leaves s p
    cases hm : s.memRead p with
    | value w t =>
      rw [hm] at hr
      cases he : emit w with
      | none => rw [walk_stop hm he] at h; cases h; exact hr
      | some bs =>
        rw [walk_round hm he] at h
        have hout : InputFrame t { t with term := t.term.outAll bs } := .withTerm (.outAll t.term bs) rfl
        exact .trans (InputFrame.trans hr hout) (ih h)
    | cancelled t => rw [walk, hm] at h; rw [hm] at hr; cases h; exact hr
    | held => rw [walk, hm] at h; cases h; trivial

end Sys2Proof.Machine

/-! PROOF. What an instruction leaves, said once for all of them: either it completes and has changed only what the tables of
R22, R25, R28, R30 and R47 give it, or its input was aborted and it is rolled back (R213). One rule per way to end, then one
line per instruction. -/

namespace Sys2Proof

open Machine

/-- Whether an instruction reads data through the bridge, and so may set the keyboard data backing cell (R45, log 14). -/
def Instr.readsMemory : Instr → Prop
  | .ld .. | .ldr .. | .ldi .. | .sti .. | .puts | .putsp => True
  | .trap v => v = 0x22#8 ∨ v = 0x24#8
  | _ => False

/-- The status an instruction that entered with `s` completes with (R30): as before, but for HALT, the illegal opcodes and a
vector with no service. -/
def Instr.statusAfter (s : State) : Instr → Status
  | .halt => .halted
  | .rti => .faulted (.illegalOpcode 8#4) s.fetchAddr
  | .reserved => .faulted (.illegalOpcode 13#4) s.fetchAddr
  | .trap v =>
    if v = 0x25#8 then .halted
    else if isServiceVector v then s.status
    else .faulted (.illegalTrap v) s.fetchAddr
  | _ => s.status

theorem Instr.statusAfter_trap (s : State) (v : BitVec 8) : (Instr.trap v).statusAfter s =
    if v = 0x25#8 then .halted else if isServiceVector v then s.status else .faulted (.illegalTrap v) s.fetchAddr := rfl

theorem Instr.statusAfter_trap_of_no_service (s : State) {v : BitVec 8} (hv : isServiceVector v = false) :
    (Instr.trap v).statusAfter s = .faulted (.illegalTrap v) s.fetchAddr := by
  have h25 : v ≠ 0x25#8 := by rintro rfl; cases hv
  rw [statusAfter_trap, if_neg h25, hv]
  rfl

/-- The status changes in three ways only: HALT, an illegal opcode, a vector with no service (R30). -/
theorem Instr.statusAfter_cases (i : Instr) (s : State) :
    i.statusAfter s = s.status ∨
    ((i = .halt ∨ i = .trap 0x25#8) ∧ i.statusAfter s = .halted) ∨
    ((i = .rti ∨ i = .reserved) ∧ i.statusAfter s = .faulted (.illegalOpcode i.opcode.bits) s.fetchAddr) ∨
    (∃ v, i = .trap v ∧ isServiceVector v = false ∧ i.statusAfter s = .faulted (.illegalTrap v) s.fetchAddr) := by
  cases i with
  | halt => exact .inr (.inl ⟨.inl rfl, rfl⟩)
  | rti => exact .inr (.inr (.inl ⟨.inl rfl, rfl⟩))
  | reserved => exact .inr (.inr (.inl ⟨.inr rfl, rfl⟩))
  | trap v =>
    cases hv : isServiceVector v with
    | false => exact .inr (.inr (.inr ⟨v, rfl, hv, statusAfter_trap_of_no_service s hv⟩))
    | true =>
      rw [statusAfter_trap, hv]
      split
      next h25 => exact .inr (.inl ⟨.inr (congrArg _ h25), rfl⟩)
      next => exact .inl rfl
  | _ => exact .inl rfl

theorem isServiceVector_iff (v : BitVec 8) : isServiceVector v = true ↔
    v = 0x20#8 ∨ v = 0x21#8 ∨ v = 0x22#8 ∨ v = 0x23#8 ∨ v = 0x24#8 ∨ v = 0x25#8 := by
  revert v; decide

end Sys2Proof

namespace Sys2Proof.Machine

/-! ### Completion and rollback -/

/-- Instruction `i`, entered with `s`, has completed with `t` and has changed only what it may. -/
structure Completes (i : Instr) (s t : State) : Prop where
  regs : ∀ r, ¬ i.mayWriteReg r → t.reg r = s.reg r
  cond : ¬ i.mayWriteCond → t.cond = s.cond
  pc : ¬ i.movesPc → t.pc = s.pc
  link : i.opcode = .trap → t.reg 7#3 = s.pc
  status : t.status = i.statusAfter s
  resumes : t.term.resumes = s.term.resumes
  mem : ¬ i.isStore → ¬ i.readsMemory → t.mem = s.mem
  memWf : s.mem.wf = true → t.mem.wf = true
  others : ¬ i.isStore → ∀ b, b ≠ 0xFE02 → t.mem.read b = s.mem.read b
  high : ¬ i.isStore → s.mem.wf = true → highByte (t.mem.read 0xFE02) = highByte (s.mem.read 0xFE02)

/-- `i`, entered with `s`, can wait for a key and was rolled back to `t` when its input was cancelled (R213). -/
def Aborts (i : Instr) (s t : State) : Prop := i.mayWait ∧ ∃ t', s.term.CancelledTo t' ∧ t = s.abort t'

/-- Whatever next state the result answers, `i` has completed or was rolled back. -/
def Answers (i : Instr) (s : State) (r : Result) : Prop := ∀ t, r = .next t → Completes i s t ∨ Aborts i s t

theorem Answers.next {i : Instr} {s t : State} (h : Completes i s t) : Answers i s (.next t) := by
  rintro _ ⟨⟩; exact .inl h

/-- Going on with a read is one of the two ways where what follows the read is. The read is made in `s'`, which may be `s`
after the link write. -/
theorem Answers.andThen {i : Instr} {s s' : State} {r : Read α} {k : α → State → Result} (hw : i.mayWait)
    (hs' : s'.term = s.term) (hr : r.Leaves s')
    (hk : ∀ v u, r = .value v u → InputFrame s' u → Answers i s (k v u)) : Answers i s (andThen s r k) := by
  intro t ht
  obtain ⟨v, u, rfl, hu⟩ | ⟨t', rfl, rfl⟩ := andThen_next ht
  · exact hk v u rfl hr t hu
  · exact .inr ⟨hw, t', hs' ▸ hr, rfl⟩

/-! ### The ways to complete -/

/-- Memory is not touched: what is left is said of the rest of the state. -/
theorem Completes.of_mem_eq {i : Instr} {s t : State} (hmem : t.mem = s.mem)
    (hregs : ∀ r, ¬ i.mayWriteReg r → t.reg r = s.reg r) (hcond : ¬ i.mayWriteCond → t.cond = s.cond)
    (hpc : ¬ i.movesPc → t.pc = s.pc) (hlink : i.opcode = .trap → t.reg 7#3 = s.pc)
    (hst : t.status = i.statusAfter s) (hres : t.term.resumes = s.term.resumes) : Completes i s t where
  regs := hregs
  cond := hcond
  pc := hpc
  link := hlink
  status := hst
  resumes := hres
  mem _ _ := hmem
  memWf h := hmem ▸ h
  others _ _ _ := by rw [hmem]
  high _ _ := by rw [hmem]

/-- Ending with a result register, after reads if `i` makes any (R27). -/
theorem Completes.writeResult {i : Instr} {s u : State} {dr : RegField} (v : Word) (hu : InputFrame s u)
    (hmem : i.readsMemory ∨ u = s) (hdr : i.mayWriteReg dr) (hcond : i.mayWriteCond) (hop : i.opcode ≠ .trap)
    (hst : i.statusAfter s = s.status) : Completes i s (u.writeResult dr v) where
  regs r hr := by
    have hne : r ≠ dr := fun e => hr (e ▸ hdr)
    rw [State.reg_writeResult, if_neg hne, State.reg_congr hu.regs]
  cond h := absurd hcond h
  pc _ := hu.pc
  link h := absurd h hop
  status := hu.status.trans hst.symm
  resumes := hu.resumes
  mem _ h := by rw [State.writeResult_mem, hmem.resolve_left h]
  memWf := hu.memWf
  others _ := hu.mem
  high _ := hu.high

/-- Ending with a store, after a pointer read if `i` makes one (R47). -/
theorem Completes.memWrite {i : Instr} {s u : State} (a v : Word) (hu : InputFrame s u) (hstore : i.isStore)
    (hop : i.opcode ≠ .trap) (hst : i.statusAfter s = s.status) : Completes i s (u.memWrite a v) where
  regs r _ := (State.reg_memWrite u a v r).trans (State.reg_congr hu.regs r)
  cond _ := (State.memWrite_cond u a v).trans hu.cond
  pc _ := (State.memWrite_pc u a v).trans hu.pc
  link h := absurd h hop
  status := (State.memWrite_status u a v).trans (hu.status.trans hst.symm)
  resumes := (congrArg Terminal.resumes (State.memWrite_term u a v)).trans hu.resumes
  mem h := absurd hstore h
  memWf h := memWrite_memWf a v (hu.memWf h)
  others h := absurd hstore h
  high h := absurd hstore h

/-- Ending with a jump (R100, R103). -/
theorem Completes.jump {i : Instr} {s : State} (a : Word) (hpc : i.movesPc) (hop : i.opcode ≠ .trap)
    (hst : s.status = i.statusAfter s) : Completes i s { s with pc := a } :=
  .of_mem_eq rfl (fun _ _ => rfl) (fun _ => rfl) (absurd hpc) (absurd · hop) hst rfl

theorem reg_link_of_not_mayWriteReg {i : Instr} (s : State) {r : RegField} (h7 : i.mayWriteReg 7#3)
    (hr : ¬ i.mayWriteReg r) : s.link.reg r = s.reg r :=
  State.reg_setReg_other s _ fun e => hr (e ▸ h7)

theorem reg_link_same (s : State) : s.link.reg 7#3 = s.pc := State.reg_setReg_same s linkReg s.pc

/-- Ending with a jump after the link write (R101, R102). -/
theorem Completes.linkedJump {i : Instr} {s : State} (a : Word) (h7 : i.mayWriteReg 7#3) (hpc : i.movesPc)
    (hop : i.opcode ≠ .trap) (hst : s.status = i.statusAfter s) : Completes i s { s.link with pc := a } :=
  .of_mem_eq rfl (fun _ => reg_link_of_not_mayWriteReg s h7) (fun _ => rfl) (absurd hpc) (absurd · hop) hst rfl

/-- Ending with IllegalOpcode (R211). -/
theorem Completes.raise {i : Instr} {s : State} {c : FaultCause} (hop : i.opcode ≠ .trap)
    (hst : .faulted c s.fetchAddr = i.statusAfter s) : Completes i s (s.raise c) :=
  .of_mem_eq rfl (fun _ _ => rfl) (fun _ => rfl) (fun _ => rfl) (absurd · hop) hst rfl

/-- A service that after the link writes no register: OUT, HALT, and the vectors with none (R173, R177, R178). -/
theorem Completes.linked {i : Instr} {s : State} {x : Terminal} {st : Status} (h7 : i.mayWriteReg 7#3)
    (hx : x.resumes = s.term.resumes) (hst : st = i.statusAfter s) :
    Completes i s { s.link with term := x, status := st } :=
  .of_mem_eq rfl (fun _ => reg_link_of_not_mayWriteReg s h7) (fun _ => rfl) (fun _ => rfl) (fun _ => reg_link_same s) hst hx

/-- A service that after the link puts a key into R0: GETC and IN (R172, R175). -/
theorem Completes.keyRead {i : Instr} {s : State} {x : Terminal} (v : Word) (h7 : i.mayWriteReg 7#3)
    (h0 : i.mayWriteReg 0#3) (hcond : i.mayWriteCond) (hx : x.resumes = s.term.resumes)
    (hst : s.status = i.statusAfter s) : Completes i s ({ s.link with term := x }.writeResult serviceReg v) := by
  refine .of_mem_eq rfl (fun r hr => ?_) (absurd hcond) (fun _ => rfl) (fun _ => ?_) hst hx
  · have hne : r ≠ serviceReg := fun e => hr (e ▸ h0)
    rw [State.reg_writeResult, if_neg hne]
    exact reg_link_of_not_mayWriteReg s h7 hr
  · exact (State.reg_setReg_other _ v (by decide)).trans (reg_link_same s)

/-- A service that after the link walks a string: PUTS and PUTSP (R174, R176). -/
theorem Completes.walked {i : Instr} {s u : State} (hu : InputFrame s.link u) (h7 : i.mayWriteReg 7#3)
    (hmem : i.readsMemory) (hst : s.status = i.statusAfter s) : Completes i s u where
  regs r hr := (State.reg_congr hu.regs r).trans (reg_link_of_not_mayWriteReg s h7 hr)
  cond _ := hu.cond
  pc _ := hu.pc
  link _ := (State.reg_congr hu.regs _).trans (reg_link_same s)
  status := hu.status.trans hst
  resumes := hu.resumes
  mem _ h := absurd hmem h
  memWf := hu.memWf
  others _ := hu.mem
  high _ := hu.high

/-! ### The services -/

section Services

variable {i : Instr} {s : State}

theorem answers_getc (hw : i.mayWait) (h7 : i.mayWriteReg 7#3) (h0 : i.mayWriteReg 0#3) (hcond : i.mayWriteCond)
    (hst : s.status = i.statusAfter s) : Answers i s (trapTo serviceGetc s) := by
  refine Answers.andThen hw s.link_term (readKey_leaves s.link) fun k u hu _ => ?_
  obtain ⟨r, rfl⟩ := readKey_withScript hu
  exact .next (.keyRead (x := s.term.withScript r) _ h7 h0 hcond rfl hst)

theorem answers_in (hw : i.mayWait) (h7 : i.mayWriteReg 7#3) (h0 : i.mayWriteReg 0#3) (hcond : i.mayWriteCond)
    (hst : s.status = i.statusAfter s) : Answers i s (trapTo serviceIn s) := by
  have hprompt : InputFrame s.link { s.link with term := s.term.outAll s.params.inPrompt } :=
    .withTerm (.outAll s.term _) rfl
  refine Answers.andThen hw s.link_term (.trans hprompt (readKey_leaves _)) fun k u hu _ => ?_
  obtain ⟨r, rfl⟩ := readKey_withScript hu
  exact .next (.keyRead (x := ((s.term.outAll s.params.inPrompt).withScript r).out k) _ h7 h0 hcond rfl hst)

theorem answers_string (emit : Word → Option (List Byte)) (hw : i.mayWait) (h7 : i.mayWriteReg 7#3)
    (hmem : i.readsMemory) (hst : s.status = i.statusAfter s) : Answers i s (trapTo (serviceString emit) s) := by
  unfold trapTo serviceString
  split
  next r hr =>
    exact Answers.andThen hw s.link_term (walk_leaves emit _ hr) fun _ u _ hu => .next (.walked hu h7 hmem hst)
  next => nofun

end Services

/-! ### Every instruction -/

/-- TRAP does what the service its vector selects does (R170, R178). -/
theorem answers_trap (v : BitVec 8) (s : State) : Answers (.trap v) s (trapTo (serviceOf v) s) := by
  unfold serviceOf
  split_ifs with h20 h21 h22 h23 h24 h25
  · subst h20; exact answers_getc (.inl rfl) (.inl rfl) (.inr ⟨rfl, .inl rfl⟩) (.inl rfl) rfl
  · subst h21; exact .next (.linked (.inl rfl) rfl rfl)
  · subst h22; exact answers_string _ (.inr (.inl rfl)) (.inl rfl) (.inl rfl) rfl
  · subst h23; exact answers_in (.inr (.inr (.inl rfl))) (.inl rfl) (.inr ⟨rfl, .inr rfl⟩) (.inr rfl) rfl
  · subst h24; exact answers_string _ (.inr (.inr (.inr rfl))) (.inl rfl) (.inr rfl) rfl
  · subst h25; exact .next (.linked (.inl rfl) rfl rfl)
  · have hv : isServiceVector v = false := by
      rw [← Bool.not_eq_true, isServiceVector_iff]
      simp [*]
    exact .next (.linked (.inl rfl) rfl (Instr.statusAfter_trap_of_no_service s hv).symm)

/-- Every instruction completes, having changed only what it may, or is rolled back. -/
theorem exec_answers (i : Instr) (s : State) : Answers i s (exec i s) := by
  have hs := InputFrame.refl s
  cases i with
  | br n z p off9 =>
    show Answers _ s (execBr n z p off9 s)
    unfold execBr
    split
    · exact .next (.jump _ trivial nofun rfl)
    · exact .next (.jump s.pc trivial nofun rfl)
  | jsr off11 => exact .next (.linkedJump _ rfl trivial nofun rfl)
  | jsrr baseR => exact .next (.linkedJump _ rfl trivial nofun rfl)
  | jmp baseR => exact .next (.jump _ trivial nofun rfl)
  | addReg dr sr1 sr2 => exact .next (.writeResult _ hs (.inr rfl) rfl trivial nofun rfl)
  | addImm dr sr1 imm5 => exact .next (.writeResult _ hs (.inr rfl) rfl trivial nofun rfl)
  | andReg dr sr1 sr2 => exact .next (.writeResult _ hs (.inr rfl) rfl trivial nofun rfl)
  | andImm dr sr1 imm5 => exact .next (.writeResult _ hs (.inr rfl) rfl trivial nofun rfl)
  | not dr sr => exact .next (.writeResult _ hs (.inr rfl) rfl trivial nofun rfl)
  | lea dr off9 => exact .next (.writeResult _ hs (.inr rfl) rfl trivial nofun rfl)
  | ld dr off9 =>
    exact .andThen trivial rfl (memRead_leaves s _) fun _ _ _ hu =>
      .next (.writeResult _ hu (.inl trivial) rfl trivial nofun rfl)
  | ldr dr baseR off6 =>
    exact .andThen trivial rfl (memRead_leaves s _) fun _ _ _ hu =>
      .next (.writeResult _ hu (.inl trivial) rfl trivial nofun rfl)
  | ldi dr off9 =>
    exact .andThen trivial rfl (memRead_leaves s _) fun _ u _ hu =>
      .andThen trivial rfl (.trans hu (memRead_leaves u _)) fun _ _ _ hv =>
        .next (.writeResult _ hv (.inl trivial) rfl trivial nofun rfl)
  | st sr off9 => exact .next (.memWrite _ _ hs trivial nofun rfl)
  | str sr baseR off6 => exact .next (.memWrite _ _ hs trivial nofun rfl)
  | sti sr off9 =>
    exact .andThen trivial rfl (memRead_leaves s _) fun _ _ _ hu => .next (.memWrite _ _ hu trivial nofun rfl)
  | rti => exact .next (.raise nofun rfl)
  | reserved => exact .next (.raise nofun rfl)
  | trap v => exact answers_trap v s
  | getc => exact answers_getc trivial (.inl rfl) (.inr rfl) trivial rfl
  | out => exact .next (.linked rfl rfl rfl)
  | puts => exact answers_string _ trivial rfl trivial rfl
  | inKey => exact answers_in trivial (.inl rfl) (.inr rfl) trivial rfl
  | putsp => exact answers_string _ trivial rfl trivial rfl
  | halt => exact .next (.linked rfl rfl rfl)

end Sys2Proof.Machine

/-! PROOF. The invariant of every step (R31, R177, R211 to R213), and the rules over all instructions (R22, R25, R28, R47),
read off what an instruction leaves. -/

namespace Sys2Proof.Machine

theorem not_movesPc_of_trap {i : Instr} (ho : i.opcode = .trap) : ¬ i.movesPc := by
  cases i with
  | br | jsr | jsrr | jmp => cases ho
  | _ => exact not_false

theorem not_isStore_of_trap {i : Instr} (ho : i.opcode = .trap) : ¬ i.isStore := by
  cases i with
  | st | str | sti => cases ho
  | _ => exact not_false

/-! ### The invariant -/

/-- A completed instruction leaves PC and R7 as its status says: the link write comes before HALT and a vector with no
service, and PC is the fetch address + 1 (R177, R211, R212). -/
theorem Completes.statusAgrees {i : Instr} {s t : State} (h : Completes i s t) (hs : s.status = .running) :
    t.StatusAgrees := by
  have hpc (hm : ¬ i.movesPc) : t.pc = s.fetchAddr + 1#16 := (h.pc hm).trans s.pc_eq_fetchAddr_succ
  have hlink (ho : i.opcode = .trap) : t.reg 7#3 = t.pc := (h.link ho).trans (h.pc (not_movesPc_of_trap ho)).symm
  unfold State.StatusAgrees
  rw [h.status]
  obtain hst | ⟨hi, hst⟩ | ⟨hi, hst⟩ | ⟨v, rfl, hv, hst⟩ := i.statusAfter_cases s <;> rw [hst]
  · rw [hs]; trivial
  · obtain rfl | rfl := hi <;> exact hlink rfl
  · obtain rfl | rfl := hi
    · exact ⟨hpc not_false, .inl rfl⟩
    · exact ⟨hpc not_false, .inr rfl⟩
  · exact ⟨hpc not_false, hlink rfl, hv⟩

/-- What `exec` answers satisfies the invariant, if the running state after the fetch has a canonical memory and usable
parameters. -/
theorem exec_inv {i : Instr} {s t : State} (h : exec i s = .next t) (hs : s.status = .running)
    (hmem : s.mem.wf = true) (hparams : s.params.Wf) : t.Inv := by
  have hp : t.params.Wf := (exec_forward i s t h).params ▸ hparams
  obtain hc | ⟨-, t', -, rfl⟩ := exec_answers i s t h
  · exact ⟨hc.memWf hmem, hc.statusAgrees hs, hp⟩
  · exact ⟨hmem, rfl, hp⟩

/-- Settles O44: a resumption is Running, a cancelled fetch is Aborted at its PC, and an instruction keeps the invariant. -/
theorem stepKeepsTheInvariant : Obligations.StepKeepsTheInvariant := by
  intro s t hinv h
  obtain ⟨_, n, -, -, rfl⟩ | ⟨hs, w, u, hr, hx⟩ | ⟨-, t', -, rfl⟩ := step_next h
  · exact ⟨hinv.memory, trivial, hinv.params⟩
  · have hu := memRead_inputFrame hr
    exact exec_inv hx (hu.status.trans hs) (hu.memWf hinv.memory) (hu.forward.params ▸ hinv.params)
  · exact ⟨hinv.memory, rfl, hinv.params⟩

/-! ### Rules over all instructions -/

/-- Settles O49, from `exec_answers`; a rollback restores COND. -/
theorem onlyTheListedInstructionsWriteCond : Obligations.OnlyTheListedInstructionsWriteCond := by
  intro i s t h hi
  obtain hc | ⟨-, t', -, rfl⟩ := exec_answers i s t h
  · exact hc.cond hi
  · rfl

/-- Settles O50, from `exec_answers`; a rollback restores every register. -/
theorem onlyTheListedInstructionsWriteEachRegister : Obligations.OnlyTheListedInstructionsWriteEachRegister := by
  intro i s t r h hi
  obtain hc | ⟨-, t', -, rfl⟩ := exec_answers i s t h
  · exact hc.regs r hi
  · rfl

theorem Completes.othersWord {i : Instr} {s t : State} (h : Completes i s t) (hi : ¬ i.isStore) {a : Word}
    (ha : a ≠ 0xFE02#16) : t.mem.read a.toNat = s.mem.read a.toNat :=
  h.others hi _ fun e => ha (BitVec.eq_of_toNat_eq e)

/-- Settles O51, from `exec_answers`; a rollback restores the backing cell too. -/
theorem onlyStoresWriteMemory : Obligations.OnlyStoresWriteMemory := by
  intro i s t h hi
  obtain hc | ⟨-, t', -, rfl⟩ := exec_answers i s t h
  · exact ⟨fun _ ha => hc.othersWord hi ha, hc.high hi⟩
  · exact ⟨fun _ _ => rfl, fun _ => rfl⟩

/-- Settles O52, from `exec_answers`; a rollback is the way back to the fetch address. -/
theorem onlyControlTransfersMovePc : Obligations.OnlyControlTransfersMovePc := by
  intro i s t h hi
  obtain hc | ⟨hw, t', -, rfl⟩ := exec_answers i s t h
  · exact .inl (hc.pc hi)
  · exact .inr ⟨rfl, rfl, hw⟩

/-! ### TRAP and the services -/

/-- Of TRAP and its services only the string services read memory (R174, R176). -/
theorem isStringService_of_readsMemory {i : Instr} (ho : i.opcode = .trap) (hi : i.readsMemory) :
    i = .puts ∨ i = .putsp ∨ i = .trap 0x22#8 ∨ i = .trap 0x24#8 := by
  cases i with
  | puts => exact .inl rfl
  | putsp => exact .inr (.inl rfl)
  | trap v => exact .inr (.inr (hi.imp (congrArg _) (congrArg _)))
  | ld | ldr | ldi | sti => cases ho
  | _ => exact hi.elim

/-- Settles O36: the terminal from `exec_forward`, the rest from `exec_answers`. -/
theorem servicesChangeNothingElse : Obligations.ServicesChangeNothingElse := by
  intro s t i ho h
  obtain ⟨⟨⟨bs, hout⟩, ⟨used, hscript⟩, hend, -⟩, hparams⟩ := exec_forward i s t h
  have hstore := not_isStore_of_trap ho
  refine ⟨⟨bs, hout.symm⟩, ⟨used, hscript.symm⟩, hend, ?_, hparams, ?_⟩
  · obtain hc | ⟨-, t', ht', rfl⟩ := exec_answers i s t h
    · exact hc.resumes
    · exact ht'.resumes
  · obtain hc | ⟨-, t', -, rfl⟩ := exec_answers i s t h
    · refine .inr ⟨hc.regs, hc.cond, hc.pc (not_movesPc_of_trap ho), hc.link ho, ?_, ?_, ?_, fun hhalt hserv => ?_⟩
      · split
        next => exact ⟨fun _ ha => hc.othersWord hstore ha, hc.high hstore⟩
        next hstring => exact hc.mem hstore fun hr => hstring (isStringService_of_readsMemory ho hr)
      · rintro (rfl | rfl) <;> exact hc.status
      · rintro v rfl hv
        exact hc.status.trans (Instr.statusAfter_trap_of_no_service s hv)
      · rw [hc.status]
        obtain hst | ⟨rfl | rfl, -⟩ | ⟨rfl | rfl, -⟩ | ⟨v, rfl, hv, -⟩ := i.statusAfter_cases s
        · exact hst
        · exact absurd rfl hhalt
        · exact absurd rfl (hserv _ rfl).1
        · cases ho
        · cases ho
        · rw [(hserv v rfl).2] at hv
          cases hv
    · exact .inl ⟨t', rfl⟩

end Sys2Proof.Machine

/-! PROOF. The execution status (R30, R75, R78, R213): what a step does in each, and what leads from one to another. -/

namespace Sys2Proof

/-! ### The decoder -/

theorem opcode_decodeTrap (v : BitVec 8) : (decodeTrap v).opcode = .trap := by
  unfold decodeTrap
  split_ifs <;> rfl

/-- The decoder gives a service vector the service's own constructor (R171, log 27). -/
theorem wellFormed_decodeTrap (v : BitVec 8) : (decodeTrap v).wellFormed = true := by
  cases hv : isServiceVector v with
  | true => obtain rfl | rfl | rfl | rfl | rfl | rfl := (isServiceVector_iff v).mp hv <;> rfl
  | false =>
    have hne (c : BitVec 8) (hc : isServiceVector c = true) : v ≠ c := by
      rintro rfl
      rw [hc] at hv
      cases hv
    have htrap : decodeTrap v = .trap v := by
      simp only [decodeTrap, hne 0x20#8 rfl, hne 0x21#8 rfl, hne 0x22#8 rfl, hne 0x23#8 rfl, hne 0x24#8 rfl,
        hne 0x25#8 rfl, if_false]
    rw [htrap, Instr.wellFormed, hv]
    rfl

/-- The opcode of a decoded word is the one its bits 15:12 select (R61, R66). -/
theorem opcode_decode (w : Word) : (decode w).opcode = Opcode.ofBits (opField w) := by
  unfold decode
  cases Opcode.ofBits (opField w) with
  | add | jsr | and => exact (apply_ite Instr.opcode ..).trans (ite_self _)
  | trap => exact opcode_decodeTrap _
  | _ => rfl

theorem wellFormed_decode (w : Word) : (decode w).wellFormed = true := by
  unfold decode
  cases Opcode.ofBits (opField w) with
  | add | jsr | and => exact (apply_ite Instr.wellFormed ..).trans (ite_self _)
  | trap => exact wellFormed_decodeTrap _
  | _ => rfl

theorem opcode_bits_decode (w : Word) : (decode w).opcode.bits = w.extractLsb' 12 4 := by
  rw [opcode_decode, Opcode.bits_ofBits]
  rfl

/-- A decoded TRAP has a vector with no service. -/
theorem no_service_of_decode_eq_trap {w : Word} {v : BitVec 8} (h : decode w = .trap v) : isServiceVector v = false := by
  simpa [h, Instr.wellFormed] using wellFormed_decode w

end Sys2Proof

namespace Sys2Proof.Machine

/-! ### The step -/

/-- From Running the loop executes the word it fetches (R75, R76). -/
theorem step_of_readsAs {s u : State} {w : Word} (hs : s.status = .running) (hr : ReadsAs s s.pc w u) :
    step s = exec (decode w) { u with pc := s.pc + 1#16 } := by
  have hadvance : u.advance = { u with pc := s.pc + 1#16 } := by rw [State.advance, hr.inputFrame.pc]
  rw [step, hs, ← hadvance]
  show s.fetchThen _ = _
  rw [State.fetchThen, hr.memRead, andThen_value]

/-- From Halted and Faulted no step is taken (R78). -/
theorem not_step_of_ended {s t : State} (hs : s.status = .halted ∨ ∃ c a, s.status = .faulted c a) :
    step s ≠ .next t := by
  rw [step]
  obtain hs | ⟨c, a, hs⟩ := hs <;> rw [hs] <;> nofun

/-- From Aborted the host decides (R78, R213). -/
theorem step_of_aborted {s : State} {a : Word} (hs : s.status = .aborted a) : step s = s.resume a := by
  rw [step, hs]

/-- The statuses a decoded instruction, entered from Running, can lead to, with what leads there. -/
theorem exec_decode_status {w : Word} {s t : State} (hs : s.status = .running) (h : exec (decode w) s = .next t) :
    t.status = .running ∨ (t.status = .halted ∧ decode w = .halt) ∨
    (∃ op a, t.status = .faulted (.illegalOpcode op) a ∧ (op = 8#4 ∨ op = 13#4) ∧ w.extractLsb' 12 4 = op) ∨
    (∃ v a, t.status = .faulted (.illegalTrap v) a ∧ decode w = .trap v ∧ isServiceVector v = false) ∨
    Aborts (decode w) s t := by
  obtain hc | ha := exec_answers _ s t h
  · obtain hst | ⟨hi, hst⟩ | ⟨hi, hst⟩ | ⟨v, hi, hv, hst⟩ := (decode w).statusAfter_cases s
    · exact .inl (hc.status.trans (hst.trans hs))
    · refine .inr (.inl ⟨hc.status.trans hst, hi.resolve_right fun h25 => ?_⟩)
      cases no_service_of_decode_eq_trap h25
    · refine .inr (.inr (.inl ⟨_, _, hc.status.trans hst, ?_, (opcode_bits_decode w).symm⟩))
      exact hi.imp (fun h => by rw [h]; rfl) (fun h => by rw [h]; rfl)
    · exact .inr (.inr (.inr (.inl ⟨v, _, hc.status.trans hst, hi, hv⟩)))
  · exact .inr (.inr (.inr (.inr ha)))

/-- What a cancellation has done to the script, in the statement's words. -/
theorem Terminal.CancelledTo.listed {t t' : Terminal} (h : t.CancelledTo t') :
    (KeyEvent.cancel ∈ t.script ∨ t.atEnd = .closed) ∧
    ∃ (x : Terminal) (r : List KeyEvent), (∃ used, t.script = used ++ x.script) ∧ x.atEnd = t.atEnd ∧
      x.CancelsNext r ∧ t' = x.withScript r := by
  refine ⟨h.cause, ?_⟩
  obtain ⟨x, r, hf, -, hx, rfl⟩ := h
  obtain ⟨used, hscript⟩ := hf.script
  exact ⟨x, r, ⟨used, hscript.symm⟩, hf.atEnd, hx, rfl⟩

/-- Settles O53: the step in each status, and the transitions from `step_next` and `exec_decode_status`. -/
theorem statusChangesOnlyAsListed : Obligations.StatusChangesOnlyAsListed := by
  refine ⟨fun s u w hs hr => ⟨step_of_readsAs hs hr, fun hd => ?_⟩, fun s hs t => not_step_of_ended hs,
    fun s a hs => ⟨fun n hn => ?_, fun hn t => ?_⟩, fun s t h => ?_⟩
  · rw [step_of_readsAs hs hr, hd]
    exact ⟨_, rfl, rfl⟩
  · rw [step_of_aborted hs, State.resume, hn]
    exact ⟨_, rfl, rfl⟩
  · rw [step_of_aborted hs, State.resume, hn]
    nofun
  · obtain ⟨a, n, hs, -, rfl⟩ | ⟨hs, w, u, hr, hx⟩ | ⟨hs, t', hr, rfl⟩ := step_next h
    · exact .inl ⟨⟨a, hs⟩, rfl⟩
    · have hread := readsAs_of_memRead hr
      have hu := hread.inputFrame
      have hrunning : u.advance.status = .running := hu.status.trans hs
      refine .inr ⟨hs, ?_⟩
      obtain hrun | hhalt | hop | hvect | ⟨hw, t', ht', rfl⟩ := exec_decode_status hrunning hx
      · exact .inl hrun
      · exact .inr (.inl ⟨w, u, hread, .inl hhalt⟩)
      · exact .inr (.inl ⟨w, u, hread, .inr (.inl hop)⟩)
      · exact .inr (.inl ⟨w, u, hread, .inr (.inr hvect)⟩)
      · have haddr : u.advance.fetchAddr = s.pc := u.fetchAddr_advance.trans hu.pc
        exact .inr (.inr ⟨congrArg Status.aborted haddr, .inr ⟨w, u, hread, hw⟩, (hu.cancelledTo ht').listed⟩)
    · obtain ⟨hpc, r, hc, rfl⟩ := readCancels_of_memRead hr
      exact .inr ⟨hs, .inr (.inr ⟨rfl, .inl ⟨hpc, r, hc, rfl⟩, hc.cancelledTo.listed⟩)⟩

end Sys2Proof.Machine

/-! PROOF. The canonical form of memory, the register file and its flags, and the state after reset (R23, R27, R31 to R37). -/

namespace Sys2Proof.Machine

/-! ### Memory -/

namespace Memory

/-- A canonical memory from `lo` on, taken apart at its first cell. -/
theorem wfFrom_cons_iff {lo k : Nat} {w : Word} {m : Memory} :
    wfFrom lo ((k, w) :: m) = true ↔ lo ≤ k ∧ k < 65536 ∧ w ≠ Config.memReset ∧ wfFrom (k + 1) m = true := by
  simp [wfFrom, and_assoc]

/-- The first listed address of a canonical memory does not read as the reset word. -/
theorem read_first_ne {lo k : Nat} {w : Word} {m : Memory} (hm : wfFrom lo ((k, w) :: m) = true) :
    read ((k, w) :: m) k ≠ Config.memReset := by
  obtain ⟨-, -, hw, -⟩ := wfFrom_cons_iff.mp hm
  rwa [read, if_pos rfl]

/-- Below its first listed address a canonical memory reads as the reset word. -/
theorem first_le_of_read_ne {lo k a : Nat} {w : Word} {m : Memory} (hm : wfFrom lo ((k, w) :: m) = true)
    (h : read ((k, w) :: m) a ≠ Config.memReset) : k ≤ a := by
  have hfrom : wfFrom k ((k, w) :: m) = true := wfFrom_cons_iff.mpr ⟨Nat.le_refl k, (wfFrom_cons_iff.mp hm).2⟩
  exact Nat.le_of_not_lt fun hlt => h (read_below hfrom hlt)

/-- Two canonical memories that read alike are the same list, cell by cell from their lowest addresses. -/
theorem eq_of_read_eq {m m' : Memory} {lo lo' : Nat} (hm : wfFrom lo m = true) (hm' : wfFrom lo' m' = true)
    (h : ∀ a < 65536, read m a = read m' a) : m = m' := by
  induction m generalizing m' lo lo' with
  | nil =>
    cases m' with
    | nil => rfl
    | cons c' m' =>
      obtain ⟨-, hk', -, -⟩ := wfFrom_cons_iff.mp hm'
      exact absurd (h _ hk').symm (read_first_ne hm')
  | cons c m ih =>
    obtain ⟨k, w⟩ := c
    obtain ⟨-, hk, -, htail⟩ := wfFrom_cons_iff.mp hm
    cases m' with
    | nil => exact absurd (h k hk) (read_first_ne hm)
    | cons c' m' =>
      obtain ⟨k', w'⟩ := c'
      obtain ⟨-, hk', -, htail'⟩ := wfFrom_cons_iff.mp hm'
      have hle : k' ≤ k := first_le_of_read_ne hm' (h k hk ▸ read_first_ne hm)
      have hle' : k ≤ k' := first_le_of_read_ne hm ((h k' hk').symm ▸ read_first_ne hm')
      obtain rfl : k = k' := Nat.le_antisymm hle' hle
      have hval : w = w' := by simpa [read] using h k hk
      have hrest : ∀ a < 65536, read m a = read m' a := by
        intro a ha
        by_cases hak : a = k
        · rw [hak, read_below htail (Nat.lt_succ_self k), read_below htail' (Nat.lt_succ_self k)]
        · simpa [read, Ne.symm hak] using h a ha
      rw [hval, ih htail htail' hrest]

end Memory

/-- Settles O12, from `Memory.eq_of_read_eq`. -/
theorem canonicalMemoriesWithEqualReadsAreEqual : Obligations.CanonicalMemoriesWithEqualReadsAreEqual := by
  intro m m' hm hm' h
  refine Memory.eq_of_read_eq hm hm' fun a ha => ?_
  have hnum : (BitVec.ofNat 16 a).toNat = a := by rw [BitVec.toNat_ofNat, Nat.mod_eq_of_lt ha]
  exact hnum ▸ h (BitVec.ofNat 16 a)

/-! ### Flags and slots -/

theorem condOf_zero : condOf 0x0000#16 = .z := rfl

theorem condOf_of_negative {v : Word} (h : v.getLsbD 15 = true) : condOf v = .n := by
  have h0 : v ≠ 0x0000#16 := by rintro rfl; cases h
  rw [condOf, if_neg h0]
  exact if_pos h

theorem condOf_of_positive {v : Word} (h0 : v ≠ 0x0000#16) (h : v.getLsbD 15 = false) : condOf v = .p := by
  have hn : ¬ v[15] = true := by rw [← BitVec.getLsbD_eq_getElem, h]; nofun
  rw [condOf, if_neg h0, if_neg hn]

/-- Settles O8: the three cases of the flag, and that a result register's flag is that of its new value. -/
theorem flagUpdateFollowsItsRule : Obligations.FlagUpdateFollowsItsRule := by
  intro s dr v
  have hreg : (s.writeResult dr v).reg dr = v := by simp
  refine ⟨?_, condOf_of_negative, condOf_of_positive, rfl, hreg, by rw [hreg]; rfl⟩
  rintro rfl
  exact condOf_zero

/-- Different flags have different words: COND is one-hot (R26). -/
theorem Cond.toWord_inj {c d : Cond} : c.toWord = d.toWord ↔ c = d := by
  cases c <;> cases d <;> decide

/-- Settles O9: the slots by their numbers, and COND's by `Cond.toWord_inj`. -/
theorem registerFileSlots : Obligations.RegisterFileSlots := by
  intro s
  have hcond : s.slot 9 = s.cond.toWord := rfl
  refine ⟨fun r => dif_pos r.isLt, rfl, ?_, ?_, ?_⟩ <;> rw [hcond]
  · exact Cond.toWord_inj (d := .p)
  · exact Cond.toWord_inj (d := .z)
  · exact Cond.toWord_inj (d := .n)

/-! ### Reset -/

/-- An empty memory holds the reset word everywhere (R36). -/
theorem read_reset (a : Nat) : State.reset.mem.read a = 0x0000#16 := rfl

theorem reg_reset (r : RegField) : State.reset.reg r = 0x0000#16 := by
  simp only [State.reg, State.reset, Vector.getElem_replicate, Config.gprReset]

/-- Settles O46. -/
theorem resetLeavesTheStatedValues : Obligations.ResetLeavesTheStatedValues :=
  ⟨fun a => read_reset a.toNat, reg_reset, rfl, rfl, rfl⟩

/-- A session with an image that has an origin starts with the image's words loaded (R240, R241). -/
theorem boot_of_imageWords {bytes : List Byte} {origin : Word} {ws : List Word}
    (h : imageWords bytes = some (origin :: ws)) :
    boot (some bytes) = .running { State.reset with mem := loadWords origin.toNat ws State.reset.mem } := by
  simp only [boot, h]

/-- Settles O47. -/
theorem memoryIsZeroAtReset : Obligations.MemoryIsZeroAtReset :=
  ⟨fun a => read_reset a.toNat, fun _ _ _ h => boot_of_imageWords h⟩

end Sys2Proof.Machine

/-! PROOF. The bridge (20_memory.md R42 to R46, R53), and LD, ST, LDR, STR, LDI and STI, which reach memory through it
(R140 to R147). -/

namespace Sys2Proof.Machine

/-! ### Keystroke reads that give no key -/

theorem readKey_of_cancelsNext {s : State} {r : List KeyEvent} (h : s.term.CancelsNext r) :
    s.readKey = .cancelled (s.term.withScript r) := by
  rw [State.readKey, readKey_cancelled.mpr h]
  rfl

theorem readKey_of_staysSilent {s : State} (h : s.term.StaysSilent) : s.readKey = .held := by
  rw [State.readKey, readKey_never.mpr h]

/-! ### The one-word read -/

/-- The converse of `readCancels_of_memRead`. -/
theorem ReadCancels.memRead {s : State} {a : Word} {t : Terminal} (h : ReadCancels s a t) :
    s.memRead a = .cancelled t := by
  obtain ⟨rfl, r, hc, rfl⟩ := h
  rw [memRead_kbdr, State.kbdrRead, readKey_of_cancelsNext hc]

theorem ReadHolds.memRead {s : State} {a : Word} (h : ReadHolds s a) : s.memRead a = .held := by
  obtain ⟨rfl, hs⟩ := h
  rw [memRead_kbdr, State.kbdrRead, readKey_of_staysSilent hs]

theorem readHolds_of_memRead {s : State} {a : Word} (h : s.memRead a = .held) : ReadHolds s a := by
  obtain ⟨v, u, -, hm⟩ | ⟨t, -, hm⟩ | ⟨hh, -⟩ := memRead_cases s a
  · rw [hm] at h; cases h
  · rw [hm] at h; cases h
  · exact hh

/-- Settles O10: each outcome of the read is its relation, each way. -/
theorem bridgedReadsFollowTheirRules : Obligations.BridgedReadsFollowTheirRules := fun _ _ =>
  ⟨fun _ _ => ⟨readsAs_of_memRead, ReadsAs.memRead⟩, fun _ => ⟨readCancels_of_memRead, ReadCancels.memRead⟩,
    readHolds_of_memRead, ReadHolds.memRead⟩

/-! ### The one-word write -/

theorem isDevice_eq_false_iff (a : Word) : isDevice a = false ↔ Ordinary a := by
  simp [isDevice, Ordinary, Config.kbsrAddr, Config.kbdrAddr]

theorem memWrite_device {s : State} {a : Word} (v : Word) (h : ¬ Ordinary a) : s.memWrite a v = s := by
  rw [← isDevice_eq_false_iff, Bool.not_eq_false] at h
  exact if_pos h

theorem read_memWrite_ordinary {s : State} {a : Word} (v : Word) (hm : s.mem.wf = true) (h : Ordinary a) :
    (s.memWrite a v).mem.read a.toNat = v := by
  rw [read_memWrite_same a v hm, (isDevice_eq_false_iff a).mpr h]
  rfl

/-- The one-word write is what `Stored` says (R46). -/
theorem memWrite_stored (s : State) (a v : Word) : Stored a v s (s.memWrite a v) where
  stored hm ha := read_memWrite_ordinary v hm ha
  ignored ha := by rw [memWrite_device v ha]
  others _ hb := read_memWrite_other s v fun e => hb (BitVec.eq_of_toNat_eq e)
  regs := State.reg_memWrite s a v
  cond := State.memWrite_cond s a v
  pc := State.memWrite_pc s a v
  status := State.memWrite_status s a v
  term := State.memWrite_term s a v
  params := State.memWrite_params s a v

/-- A stored word is read back through the bridge (R43, R53). -/
theorem memWrite_readsAs {s : State} {a : Word} (v : Word) (hm : s.mem.wf = true) (ha : Ordinary a) :
    ReadsAs (s.memWrite a v) a v (s.memWrite a v) := by
  have hread := ReadsAs.storage (s := s.memWrite a v) a ha
  rwa [read_memWrite_ordinary v hm ha] at hread

/-- Settles O11. -/
theorem bridgedWritesFollowTheirRule : Obligations.BridgedWritesFollowTheirRule := fun s a v hm =>
  ⟨memWrite_stored s a v, memWrite_memWf a v hm, memWrite_readsAs v hm⟩

/-! ### Stores -/

/-- Settles O20: ST and STR are the one-word write at their effective address. -/
theorem directStoresWriteOneWord : Obligations.DirectStoresWriteOneWord := fun s _ =>
  ⟨fun _ => ⟨_, rfl, memWrite_stored s _ _⟩, fun _ _ => ⟨_, rfl, memWrite_stored s _ _⟩⟩

/-- STI is the one-word write at the word its pointer read gives (R145). -/
theorem exec_sti_of_readsAs {s u : State} {p : Word} (sr : RegField) {off9 : BitVec 9}
    (h : ReadsAs s (s.pc + sext off9) p u) : exec (.sti sr off9) s = .next (u.memWrite p (s.reg sr)) := by
  show andThen s (s.memRead (s.pc + sext off9)) _ = _
  rw [h.memRead, andThen_value, State.reg_congr h.inputFrame.regs]

/-- Settles O21. -/
theorem indirectStoreWritesOneWord : Obligations.IndirectStoreWritesOneWord := fun _ u p sr _ h =>
  ⟨⟨_, exec_sti_of_readsAs sr h, memWrite_stored u p _⟩, h.inputFrame.memWf⟩

/-! ### Loads -/

/-- What goes on with a bridged read writes no output, if what follows the read writes none; a rollback keeps it too. -/
theorem andThen_memRead_output {s entry t : State} {a : Word} {k : Word → State → Result}
    (h : andThen entry (s.memRead a) k = .next t)
    (hk : ∀ v u, k v u = .next t → t.term.output = u.term.output) : t.term.output = s.term.output := by
  obtain ⟨v, u, hr, hv⟩ | ⟨t', hr, rfl⟩ := andThen_next h
  · exact (hk v u hv).trans (memRead_frame hr).output
  · obtain ⟨-, r, -, rfl⟩ := readCancels_of_memRead hr
    rfl

theorem output_of_writeResult {u t : State} {dr : RegField} {v : Word}
    (h : (.next (u.writeResult dr v) : Result) = .next t) : t.term.output = u.term.output := by
  cases h; rfl

/-- No load writes output (R140, R142, R144). -/
theorem load_output {s t : State} {dr baseR : RegField} {off9 : BitVec 9} {off6 : BitVec 6} {i : Instr}
    (hi : i = .ld dr off9 ∨ i = .ldr dr baseR off6 ∨ i = .ldi dr off9) (h : exec i s = .next t) :
    t.term.output = s.term.output := by
  obtain rfl | rfl | rfl := hi
  · exact andThen_memRead_output h fun _ _ => output_of_writeResult
  · exact andThen_memRead_output h fun _ _ => output_of_writeResult
  · exact andThen_memRead_output h fun _ _ h' => andThen_memRead_output h' fun _ _ => output_of_writeResult

/-- What a load is among the instructions: it may write DR alone, it is no store, and it moves neither PC nor status
(R22, R25, R30, R47). -/
theorem load_class {dr baseR : RegField} {off9 : BitVec 9} {off6 : BitVec 6} {i : Instr} (s : State)
    (hi : i = .ld dr off9 ∨ i = .ldr dr baseR off6 ∨ i = .ldi dr off9) :
    (∀ r, i.mayWriteReg r → r = dr) ∧ ¬ i.isStore ∧ ¬ i.movesPc ∧ i.statusAfter s = s.status := by
  obtain rfl | rfl | rfl := hi <;> exact ⟨fun _ => id, not_false, not_false, rfl⟩

/-- Settles O19: the core from `exec_answers`, the host's side from `exec_forward`, the output from `load_output`. -/
theorem loadsChangeNothingElse : Obligations.LoadsChangeNothingElse := by
  intro s t dr baseR off9 off6 i hi h
  obtain ⟨hdr, hstore, hpc, hst⟩ := load_class s hi
  obtain ⟨⟨-, ⟨used, hscript⟩, hend, -⟩, hparams⟩ := exec_forward i s t h
  have hout := load_output hi h
  obtain hc | ⟨-, t', ht', rfl⟩ := exec_answers i s t h
  · exact ⟨fun r hr => hc.regs r (hr ∘ hdr r), fun _ ha => hc.othersWord hstore ha, hc.high hstore, hout,
      ⟨used, hscript.symm⟩, hend, hc.resumes, hparams, .inl ⟨hc.pc hpc, hc.status.trans hst⟩⟩
  · exact ⟨fun _ _ => rfl, fun _ _ => rfl, fun _ => rfl, hout, ⟨used, hscript.symm⟩, hend, ht'.resumes, rfl,
      .inr ⟨t', rfl, rfl, rfl, rfl⟩⟩

/-! ### A silent host -/

/-- What goes on with a read that has no answer is held (R45). -/
theorem andThen_of_readHolds {s entry : State} {a : Word} (k : Word → State → Result) (h : ReadHolds s a) :
    andThen entry (s.memRead a) k = .fault .heldForKey := by
  rw [h.memRead, andThen_held]

theorem andThen_of_staysSilent {s entry : State} (k : Byte → State → Result) (h : s.term.StaysSilent) :
    andThen entry s.readKey k = .fault .heldForKey := by
  rw [readKey_of_staysSilent h, andThen_held]

/-- LDI goes on with the read through its pointer (R144). -/
theorem exec_ldi_of_readsAs {s u : State} {p : Word} (dr : RegField) {off9 : BitVec 9}
    (h : ReadsAs s (s.pc + sext off9) p u) :
    exec (.ldi dr off9) s = andThen s (u.memRead p) fun v w => .next (w.writeResult dr v) := by
  show andThen s (s.memRead (s.pc + sext off9)) _ = _
  rw [h.memRead, andThen_value]

/-- Settles O38. -/
theorem silentHostHoldsTheInstruction : Obligations.SilentHostHoldsTheInstruction := by
  intro s dr baseR off9 off6
  refine ⟨fun h => ⟨?_, ?_, ?_⟩, fun h => ?_, fun p u hp h => ?_, fun h => ⟨?_, ?_⟩⟩
  · exact andThen_of_readHolds _ h
  · exact andThen_of_readHolds _ h
  · exact andThen_of_readHolds _ h
  · exact andThen_of_readHolds _ h
  · exact (exec_ldi_of_readsAs dr hp).trans (andThen_of_readHolds _ h)
  · exact andThen_of_staysSilent (s := s.link) _ h
  · exact andThen_of_staysSilent (s := { s.link with term := s.term.outAll s.params.inPrompt }) _ h

/-! ### A store over the next instruction -/

/-- With offset 0, ST stores at the incremented PC. -/
theorem exec_st_zero (sr : RegField) (s : State) : exec (.st sr 0#9) s = .next (s.memWrite s.pc (s.reg sr)) := by
  have haddr : s.pcRel9 0#9 = s.pc := BitVec.add_zero _
  show Host.Outcome.next (s.memWrite (s.pcRel9 0#9) (s.reg sr)) = _
  rw [haddr]

/-- A word written at PC is what the loop runs next (R56, R244). -/
theorem step_memWrite_pc {s : State} (v : Word) (hs : s.status = .running) (hm : s.mem.wf = true) (ha : Ordinary s.pc) :
    step (s.memWrite s.pc v) = exec (decode v) { s.memWrite s.pc v with pc := s.pc + 1#16 } := by
  have hpc := State.memWrite_pc s s.pc v
  have hread : ReadsAs (s.memWrite s.pc v) (s.memWrite s.pc v).pc v (s.memWrite s.pc v) := by
    rw [hpc]
    exact memWrite_readsAs v hm ha
  rw [step_of_readsAs ((State.memWrite_status ..).trans hs) hread, hpc]

/-- Settles O43: the first step stores SR at its own incremented PC, where the second fetches it. -/
theorem storeIsSeenByTheNextFetch : Obligations.StoreIsSeenByTheNextFetch := by
  intro s sr hs hm hpc hnext hd
  refine ⟨s.advance.memWrite s.advance.pc (s.reg sr), ?_, State.memWrite_pc .., ?_⟩
  · rw [step_of_readsAs hs (.storage s.pc hpc), hd]
    exact exec_st_zero sr s.advance
  · have htwo : s.advance.pc + 1#16 = s.pc + 2#16 := BitVec.add_assoc ..
    rw [step_memWrite_pc (s := s.advance) (s.reg sr) hs hm hnext, htwo]

end Sys2Proof.Machine

/-! PROOF. The ways an instruction stops (R45, R174, R179, R226): held before a silent host, or a PUTS walk without end. One
rule per shared operation, then one line per instruction. -/

namespace Sys2Proof.Machine

/-! ### Endless walks -/

theorem putsEmit_eq_none_iff (w : Word) : putsEmit w = none ↔ w = 0x0000#16 := by
  unfold putsEmit
  split <;> simp [*]

theorem typedWord_ordinary (k : Byte) (m : Memory) {a : Word} (h : Ordinary a) : typedWord k m a = m.read a.toNat := by
  have hkbsr : a ≠ Config.kbsrAddr := h.1
  have hkbdr : a ≠ Config.kbdrAddr := h.2
  rw [typedWord, if_neg hkbsr, if_neg hkbdr]

theorem zext_eq_zero_iff (k : Byte) : zext k = 0x0000#16 ↔ k = 0x00#8 := by revert k; decide

/-- Before a host that types `k` without end no read gives a zero word exactly if neither `k` nor a word of ordinary storage
is zero: a ready poll never is (R44). -/
theorem typedWord_ne_zero_iff (k : Byte) (m : Memory) :
    (∀ a, typedWord k m a ≠ 0x0000#16) ↔ k ≠ 0x00#8 ∧ ∀ a : Word, Ordinary a → m.read a.toNat ≠ 0x0000#16 := by
  have hkbsr : typedWord k m 0xFE00#16 = 0x8000#16 := rfl
  have hkbdr : typedWord k m 0xFE02#16 = zext k := rfl
  constructor
  · intro h
    refine ⟨fun hk => h 0xFE02#16 ?_, fun a ha => typedWord_ordinary k m ha ▸ h a⟩
    rw [hkbdr, (zext_eq_zero_iff k).mpr hk]
  · rintro ⟨hk, hm⟩ a
    obtain rfl | rfl | ha := address_cases a
    · rw [hkbsr]; decide
    · rw [hkbdr]; exact hk ∘ (zext_eq_zero_iff k).mp
    · exact typedWord_ordinary k m ha ▸ hm a ha

/-- If a string service stops, its walk came to a read with no answer, or has no end. -/
theorem serviceString_fault {emit : Word → Option (List Byte)} {entry s : State} {f : Fault}
    (h : serviceString emit entry s = .fault f) :
    (walk emit s.walkFuel (s.reg serviceReg) s = some .held ∧ f = .heldForKey) ∨
    (walk emit s.walkFuel (s.reg serviceReg) s = none ∧ f = .walkUnending) := by
  unfold serviceString at h
  split at h
  next r hw =>
    obtain ⟨_, _, -, hk⟩ | ⟨rfl, hf⟩ := andThen_fault h
    · cases hk
    · exact .inl ⟨hw, hf⟩
  next hw => exact .inr ⟨hw, (Host.Outcome.fault.inj h).symm⟩

/-- A PUTS walk has no answer only where no read gives a zero word (R174). -/
theorem walk_puts_none {s : State} {p : Word} (h : walk putsEmit s.walkFuel p s = none) :
    ∃ k, s.term.atEnd = .typing k ∧ ∀ a, typedWord k s.mem a ≠ 0x0000#16 := by
  obtain ⟨-, k, hk, hall⟩ := walk_none putsEmit _ p s (walkBound_le_walkFuel p s) h
  exact ⟨k, hk, fun a => hall a ∘ (putsEmit_eq_none_iff _).mpr⟩

theorem walk_puts_typing {s : State} {k : Byte} (n : Nat) (p : Word) (hs : s.term.script = [])
    (he : s.term.atEnd = .typing k) (hall : ∀ a, typedWord k s.mem a ≠ 0x0000#16) : walk putsEmit n p s = none :=
  (walk_typing putsEmit n p s hs he).mpr fun _ _ => hall _ ∘ (putsEmit_eq_none_iff _).mp

/-- The loop of R174 goes on past any number of words that are not zero, and writes a byte for each. -/
theorem stringRounds_puts_typing {k : Byte} (n : Nat) {p : Word} {s : State} (hs : s.term.script = [])
    (he : s.term.atEnd = .typing k) (hall : ∀ a, typedWord k s.mem a ≠ 0x0000#16) :
    ∃ t, StringRounds putsFormat n p s t ∧ t.term.output.length = s.term.output.length + n := by
  induction n generalizing p s with
  | zero => exact ⟨s, .zero, rfl⟩
  | succ n ih =>
    obtain ⟨u, hr, ht, hm⟩ := memRead_typing hs he p
    have hgoes : putsFormat.ends (typedWord k s.mem p) = false := beq_eq_false_iff_ne.mpr (hall p)
    have hall' (a : Word) : typedWord k u.mem a ≠ 0x0000#16 := typedWord_congr (k := k) hm a ▸ hall a
    obtain ⟨t, hrounds, hlen⟩ := ih (p := p + 1#16) (s := u.wrote (putsFormat.bytes (typedWord k s.mem p)))
      ((congrArg Terminal.script ht).trans hs) ((congrArg Terminal.atEnd ht).trans he) hall'
    refine ⟨t, .succ (readsAs_of_memRead hr) hgoes hrounds, ?_⟩
    simp [hlen, State.wrote, putsFormat, ht]
    omega

/-- Settles O35: PUTS from the walk and the loop before such a host; PUTSP from `walk_putsp`. -/
theorem putsWithoutATerminatorNeverEnds : Obligations.PutsWithoutATerminatorNeverEnds := by
  refine ⟨fun s k hs he hk hm => ?_, fun s h => ?_⟩
  · have hall := (typedWord_ne_zero_iff k s.mem).mpr ⟨hk, hm⟩
    refine ⟨?_, fun n => stringRounds_puts_typing n (s := s.link) hs he hall⟩
    show serviceString putsEmit s s.link = _
    rw [serviceString, walk_puts_typing (s := s.link) _ _ hs he hall]
  · obtain ⟨-, hf⟩ | ⟨hw, -⟩ := serviceString_fault (entry := s) (s := s.link) h
    · cases hf
    · exact walk_putsp _ _ hw

/-! ### A host that can hold the core -/

/-- The host is silent at the end of its script and cancels nowhere in it: every held read needs this. -/
def Terminal.CanHold (t : Terminal) : Prop := t.atEnd = .silent ∧ KeyEvent.cancel ∉ t.script

theorem Terminal.StaysSilent.canHold {t : Terminal} (h : t.StaysSilent) : t.CanHold := by
  obtain ⟨he, n, hs⟩ := h
  exact ⟨he, by simp [hs, List.mem_replicate]⟩

/-- A read that gives a word takes no cancellation out of the script. -/
theorem ReadsAs.canHold {s u : State} {a v : Word} (h : ReadsAs s a v u) (hu : u.term.CanHold) : s.term.CanHold := by
  cases h with
  | storage _ _ | ready _ _ _ | cancelling _ _ | ended _ _ | typing _ _ _ => exact hu
  | notReady r hs =>
    have hr : KeyEvent.cancel ∉ r := hu.2
    exact ⟨hu.1, by simp [hs, hr]⟩
  | data k r hk =>
    have he : s.term.atEnd = .silent := hu.1
    have hr : KeyEvent.cancel ∉ r := hu.2
    obtain ⟨n, hs | ⟨-, htyping, -⟩⟩ := hk
    · exact ⟨he, by simp [hs, hr, List.mem_replicate]⟩
    · cases he.symm.trans htyping

theorem memRead_held_canHold {s : State} {a : Word} (h : s.memRead a = .held) : s.term.CanHold :=
  (readHolds_of_memRead h).2.canHold

theorem readKey_held_canHold {s : State} (h : s.readKey = .held) : s.term.CanHold :=
  memRead_held_canHold (a := 0xFE02#16) (by rw [memRead_kbdr, State.kbdrRead, h])

theorem walk_held_canHold (emit : Word → Option (List Byte)) (fuel : Nat) {p : Word} {s : State}
    (h : walk emit fuel p s = some .held) : s.term.CanHold := by
  induction fuel generalizing p s with
  | zero => cases h
  | succ n ih =>
    cases hm : s.memRead p with
    | value w t =>
      cases he : emit w with
      | none => rw [walk_stop hm he] at h; cases h
      | some bs =>
        rw [walk_round hm he] at h
        have hout : { t with term := t.term.outAll bs }.term.CanHold := ih h
        exact (readsAs_of_memRead hm).canHold hout
    | cancelled t => rw [walk, hm] at h; cases h
    | held => exact memRead_held_canHold hm

/-! ### Every instruction -/

/-- The result of `i`, entered with `s`, is no refusal, and it is a fault only where the host can hold `i` or `i` is a PUTS
whose walk meets no zero word. -/
def StopsAsListed (i : Instr) (s : State) (r : Result) : Prop :=
  (∀ x, r ≠ .refused x) ∧
  ∀ f, r = .fault f →
    (f = .heldForKey ∧ i.mayWait ∧ s.term.CanHold) ∨
    (f = .walkUnending ∧ (i = .puts ∨ i = .trap 0x22#8) ∧
      ∃ k, s.term.atEnd = .typing k ∧ ∀ a, typedWord k s.mem a ≠ 0x0000#16)

namespace StopsAsListed

variable {i : Instr} {s : State}

theorem next (t : State) : StopsAsListed i s (.next t) := ⟨nofun, nofun⟩

/-- Going on with a read adds the one stop that the read is held. -/
theorem andThen {r : Read α} {k : α → State → Result} (hw : i.mayWait) (hheld : r = .held → s.term.CanHold)
    (hk : ∀ v u, r = .value v u → StopsAsListed i s (k v u)) : StopsAsListed i s (andThen s r k) := by
  cases r with
  | value v u => exact hk v u rfl
  | cancelled t => exact .next _
  | held => exact ⟨nofun, fun _ h => .inl ⟨(Host.Outcome.fault.inj h).symm, hw, hheld rfl⟩⟩

theorem getc (hw : i.mayWait) : StopsAsListed i s (trapTo serviceGetc s) :=
  .andThen hw (readKey_held_canHold (s := s.link)) fun _ _ _ => .next _

theorem inKey (hw : i.mayWait) : StopsAsListed i s (trapTo serviceIn s) :=
  .andThen hw (readKey_held_canHold (s := { s.link with term := s.term.outAll s.params.inPrompt })) fun _ _ _ => .next _

/-- A string service stops where its walk is held, or where it has no end, which only PUTS may. -/
theorem string {emit : Word → Option (List Byte)} (hw : i.mayWait)
    (hend : ∀ p, walk emit s.link.walkFuel p s.link = none → emit = putsEmit ∧ (i = .puts ∨ i = .trap 0x22#8)) :
    StopsAsListed i s (trapTo (serviceString emit) s) := by
  refine ⟨fun x h => ?_, fun f h => ?_⟩
  · unfold trapTo serviceString at h
    split at h
    next r _ => cases r <;> cases h
    next => cases h
  · obtain ⟨hheld, rfl⟩ | ⟨hnone, rfl⟩ := serviceString_fault (entry := s) (s := s.link) h
    · exact .inl ⟨rfl, hw, walk_held_canHold (s := s.link) _ _ hheld⟩
    · obtain ⟨rfl, hi⟩ := hend _ hnone
      exact .inr ⟨rfl, hi, walk_puts_none (s := s.link) hnone⟩

theorem puts (hw : i.mayWait) (hi : i = .puts ∨ i = .trap 0x22#8) :
    StopsAsListed i s (trapTo (serviceString putsEmit) s) :=
  .string hw fun _ _ => ⟨rfl, hi⟩

theorem putsp (hw : i.mayWait) : StopsAsListed i s (trapTo (serviceString putspEmit) s) :=
  .string hw fun p h => absurd h (walk_putsp s.link p)

end StopsAsListed

/-- TRAP stops as the service its vector selects does (R170). -/
theorem trap_stopsAsListed (v : BitVec 8) (s : State) : StopsAsListed (.trap v) s (trapTo (serviceOf v) s) := by
  unfold serviceOf
  split_ifs with h20 h21 h22 h23 h24 h25
  · exact .getc (.inl h20)
  · exact .next _
  · exact .puts (.inr (.inl h22)) (.inr (congrArg _ h22))
  · exact .inKey (.inr (.inr (.inl h23)))
  · exact .putsp (.inr (.inr (.inr h24)))
  · exact .next _
  · exact .next _

theorem exec_stopsAsListed (i : Instr) (s : State) : StopsAsListed i s (exec i s) := by
  cases i with
  | br n z p off9 =>
    show StopsAsListed _ s (execBr n z p off9 s)
    unfold execBr
    split <;> exact .next _
  | ld dr off9 => exact .andThen trivial memRead_held_canHold fun _ _ _ => .next _
  | ldr dr baseR off6 => exact .andThen trivial memRead_held_canHold fun _ _ _ => .next _
  | ldi dr off9 =>
    exact .andThen trivial memRead_held_canHold fun _ _ hr =>
      .andThen trivial (fun h => (readsAs_of_memRead hr).canHold (memRead_held_canHold h)) fun _ _ _ => .next _
  | sti sr off9 => exact .andThen trivial memRead_held_canHold fun _ _ _ => .next _
  | trap v => exact trap_stopsAsListed v s
  | getc => exact .getc trivial
  | puts => exact .puts trivial (.inl rfl)
  | inKey => exact .inKey trivial
  | putsp => exact .putsp trivial
  | jsr | jsrr | jmp | addReg | addImm | andReg | andImm | not | lea | st | str | out | halt | rti | reserved =>
    exact .next _

/-- Settles O54, from `exec_stopsAsListed`. -/
theorem instructionsStopOnlyWhenHeldOrEndless : Obligations.InstructionsStopOnlyWhenHeldOrEndless := by
  intro i s
  obtain ⟨hrefused, hfault⟩ := exec_stopsAsListed i s
  refine ⟨hrefused, fun f h => (hfault f h).imp id ?_⟩
  rintro ⟨hf, hi, k, he, hall⟩
  obtain ⟨hk, hm⟩ := (typedWord_ne_zero_iff k s.mem).mp hall
  exact ⟨hf, hi, ⟨k, he, hk⟩, hm⟩

end Sys2Proof.Machine

/-! PROOF. The load of an image (R48, R58, R241). -/

namespace Sys2Proof.Machine

/-! ### Where the words go -/

/-- A load keeps the canonical form. -/
theorem wf_loadWords (a : Nat) (ws : List Word) {m : Memory} (hm : m.wf = true) : (loadWords a ws m).wf = true := by
  induction ws generalizing a m with
  | nil => exact hm
  | cons w ws ih =>
    rw [loadWords]
    split
    next ha => exact ih (a + 1) (Memory.wf_write w hm ha)
    next => exact hm

/-- After a load from `a` on, an address reads the image's word for it, if there is one, or as before. -/
theorem read_loadWords (a : Nat) (ws : List Word) {m : Memory} (hm : m.wf = true) {b : Nat} (hb : b < 65536) :
    (loadWords a ws m).read b = if a ≤ b then ws[b - a]?.getD (m.read b) else m.read b := by
  induction ws generalizing a m with
  | nil => simp [loadWords]
  | cons w ws ih =>
    rw [loadWords]
    split
    next ha =>
      rw [ih (a + 1) (Memory.wf_write w hm ha), Memory.read_write a b w hm]
      obtain hlt | rfl | hgt := Nat.lt_trichotomy b a
      · simp [show ¬ a + 1 ≤ b by omega, show ¬ a ≤ b by omega, Nat.ne_of_lt hlt]
      · simp
      · have hsucc : b - a = b - (a + 1) + 1 := by omega
        rw [if_pos (Nat.succ_le_of_lt hgt), if_pos hgt.le, if_neg hgt.ne', hsucc, List.getElem?_cons_succ]
    next => rw [if_neg (by omega)]

/-- Settles O56, from `wf_loadWords` and `read_loadWords`. -/
theorem loadPutsTheImageAtItsOrigin : Obligations.LoadPutsTheImageAtItsOrigin := by
  intro m origin ws hm
  refine ⟨wf_loadWords _ ws hm, fun a => ?_⟩
  rw [read_loadWords _ ws hm a.isLt]
  by_cases h : origin.toNat ≤ a.toNat ∧ a.toNat - origin.toNat < ws.length
  · rw [dif_pos h, if_pos h.1, List.getElem?_eq_getElem h.2, Option.getD_some]
  · rw [dif_neg h]
    rw [not_and, Nat.not_lt] at h
    split
    next hle => rw [List.getElem?_eq_none (h hle), Option.getD_none]
    next => rfl

/-! ### Bytes and words, by their numbers -/

theorem toNat_lowByte (w : Word) : (lowByte w).toNat = w.toNat % 256 := by
  simp [lowByte]

theorem toNat_highByte (w : Word) : (highByte w).toNat = w.toNat / 256 := by
  have := w.isLt
  simp only [highByte, BitVec.extractLsb'_toNat, Nat.shiftRight_eq_div_pow]
  omega

theorem toNat_wordOf (hi lo : Byte) : (wordOf hi lo).toNat = hi.toNat * 256 + lo.toNat := by
  show (hi ++ lo).toNat = _
  rw [BitVec.toNat_append, ← Nat.shiftLeft_add_eq_or_of_lt lo.isLt, Nat.shiftLeft_eq]

/-- A word is its high byte and its low byte. -/
theorem wordOf_highByte_lowByte (w : Word) : wordOf (highByte w) (lowByte w) = w := by
  apply BitVec.eq_of_toNat_eq
  rw [toNat_wordOf, toNat_highByte, toNat_lowByte]
  omega

theorem setWidth_eq_lowByte (w : Word) : w.setWidth 8 = lowByte w := by
  apply BitVec.eq_of_toNat_eq
  rw [toNat_lowByte, BitVec.toNat_setWidth]

theorem lowByte_ushiftRight (w : Word) : lowByte (w >>> 8) = highByte w := by
  apply BitVec.eq_of_toNat_eq
  have := w.isLt
  rw [toNat_highByte, toNat_lowByte, BitVec.toNat_ushiftRight, Nat.shiftRight_eq_div_pow]
  omega

/-- The words of an image written high byte first (R241). -/
theorem imageWords_bytes (ws : List Word) : imageWords (ws.flatMap fun w => [highByte w, lowByte w]) = some ws := by
  induction ws with
  | nil => rfl
  | cons w ws ih =>
    show (imageWords (ws.flatMap _)).map (wordOf (highByte w) (lowByte w) :: ·) = _
    rw [ih, wordOf_highByte_lowByte, Option.map_some]

/-- Settles O57, from `imageWords_bytes` and the numbers of the bytes. -/
theorem imageWordsAreBigEndian : Obligations.ImageWordsAreBigEndian := by
  refine ⟨fun ws => ?_, fun w => ?_⟩
  · simp only [setWidth_eq_lowByte, lowByte_ushiftRight]
    exact imageWords_bytes ws
  · rw [byteSwap16, toNat_wordOf, toNat_lowByte, toNat_highByte]

end Sys2Proof.Machine

/-! PROOF. The encoding (30_encoding.md R60 to R68): the format table as a relation between an instruction and a word, and the
decoder and the encoder each against it; then what the ignored bits do not change. -/

namespace Sys2Proof

/-! ### One-bit fields and the trap table -/

/-- The bits that select a mode or a condition, as fields of width 1 (R62). -/
theorem ofBool_getElem (w : Word) (i : Nat) (hi : i < 16) : BitVec.ofBool w[i] = field i 1 w := by
  ext j hj
  obtain rfl : j = 0 := by omega
  rw [← getElem_eq_field w i hi]
  simp

theorem getElem_of_field {w : Word} {i : Nat} {hi : i < 16} {b : Bool} (h : field i 1 w = BitVec.ofBool b) : w[i] = b := by
  rw [getElem_eq_field w i hi, h]
  simp

theorem field_of_getElem {w : Word} {i : Nat} {hi : i < 16} {b : Bool} (h : w[i] = b) : BitVec.ofBool b = field i 1 w := by
  rw [← h, ofBool_getElem w i hi]

theorem decodeTrap_of_no_service {v : BitVec 8} (hv : isServiceVector v = false) : decodeTrap v = .trap v := by
  have hne : ¬ _ := fun h => Bool.false_ne_true (hv.symm.trans ((isServiceVector_iff v).mpr h))
  simp only [not_or] at hne
  simp only [decodeTrap, hne, if_false]

/-- Whatever the vector selects, the word is TRAP's (R170, R171). -/
theorem encode_decodeTrap (v : BitVec 8) : encode (decodeTrap v) = place 12 Opcode.trap.bits ||| place 0 v := by
  cases hv : isServiceVector v with
  | true => obtain rfl | rfl | rfl | rfl | rfl | rfl := (isServiceVector_iff v).mp hv <;> rfl
  | false => rw [decodeTrap_of_no_service hv]; rfl

/-! ### The format table -/

/-- The fields of `w` are those of `i`: the row of `i` in the format table (R62, R66), ignored bits left out. -/
def Instr.HasFields (i : Instr) (w : Word) : Prop :=
  opField w = i.opcode.bits ∧
  match i with
  | .br n z p off9 =>
    field 11 1 w = BitVec.ofBool n ∧ field 10 1 w = BitVec.ofBool z ∧ field 9 1 w = BitVec.ofBool p ∧ off9Field w = off9
  | .addReg dr sr1 sr2 => drField w = dr ∧ baseField w = sr1 ∧ field 5 1 w = 0#1 ∧ sr2Field w = sr2
  | .addImm dr sr1 imm5 => drField w = dr ∧ baseField w = sr1 ∧ field 5 1 w = 1#1 ∧ imm5Field w = imm5
  | .ld dr off9 => drField w = dr ∧ off9Field w = off9
  | .st sr off9 => drField w = sr ∧ off9Field w = off9
  | .jsr off11 => field 11 1 w = 1#1 ∧ off11Field w = off11
  | .jsrr baseR => field 11 1 w = 0#1 ∧ baseField w = baseR
  | .andReg dr sr1 sr2 => drField w = dr ∧ baseField w = sr1 ∧ field 5 1 w = 0#1 ∧ sr2Field w = sr2
  | .andImm dr sr1 imm5 => drField w = dr ∧ baseField w = sr1 ∧ field 5 1 w = 1#1 ∧ imm5Field w = imm5
  | .ldr dr baseR off6 => drField w = dr ∧ baseField w = baseR ∧ off6Field w = off6
  | .str sr baseR off6 => drField w = sr ∧ baseField w = baseR ∧ off6Field w = off6
  | .rti => True
  | .not dr sr => drField w = dr ∧ baseField w = sr
  | .ldi dr off9 => drField w = dr ∧ off9Field w = off9
  | .sti sr off9 => drField w = sr ∧ off9Field w = off9
  | .jmp baseR => baseField w = baseR
  | .reserved => True
  | .lea dr off9 => drField w = dr ∧ off9Field w = off9
  | .trap v => vectField w = v
  | .getc => vectField w = 0x20#8
  | .out => vectField w = 0x21#8
  | .puts => vectField w = 0x22#8
  | .inKey => vectField w = 0x23#8
  | .putsp => vectField w = 0x24#8
  | .halt => vectField w = 0x25#8

/-- The decoder reads the table: bits 15:12 select the row, and the row's fields are the operands. -/
theorem decode_of_hasFields {i : Instr} {w : Word} (hi : i.wellFormed = true) (h : i.HasFields w) : decode w = i := by
  obtain ⟨hop, h⟩ := h
  unfold decode
  rw [hop, Opcode.ofBits_bits]
  cases i with
  | br n z p off9 =>
    obtain ⟨hn, hz, hp, rfl⟩ := h
    show Instr.br w[11] w[10] w[9] _ = _
    rw [getElem_of_field hn, getElem_of_field hz, getElem_of_field hp]
  | addReg dr sr1 sr2 | andReg dr sr1 sr2 =>
    obtain ⟨rfl, rfl, hmode, rfl⟩ := h
    exact if_neg (Bool.eq_false_iff.mp (getElem_of_field hmode))
  | addImm dr sr1 imm5 | andImm dr sr1 imm5 =>
    obtain ⟨rfl, rfl, hmode, rfl⟩ := h
    exact if_pos (getElem_of_field hmode)
  | jsr off11 =>
    obtain ⟨hmode, rfl⟩ := h
    exact if_pos (getElem_of_field hmode)
  | jsrr baseR =>
    obtain ⟨hmode, rfl⟩ := h
    exact if_neg (Bool.eq_false_iff.mp (getElem_of_field hmode))
  | ldr dr baseR off6 | str dr baseR off6 => obtain ⟨rfl, rfl, rfl⟩ := h; rfl
  | ld dr off9 | st dr off9 | ldi dr off9 | sti dr off9 | lea dr off9 => obtain ⟨rfl, rfl⟩ := h; rfl
  | not dr sr => obtain ⟨rfl, rfl⟩ := h; rfl
  | jmp baseR => exact congrArg Instr.jmp h
  | rti | reserved => rfl
  | trap v =>
    have hv : isServiceVector v = false := Bool.not_eq_true' _ ▸ hi
    exact (congrArg decodeTrap h).trans (decodeTrap_of_no_service hv)
  | getc | out | puts | inKey | putsp | halt => exact congrArg decodeTrap h

/-- The encoder puts every field of the row at its place, where the places do not overlap (R62). -/
theorem hasFields_encode (i : Instr) : i.HasFields (encode i) := by
  cases i with
  | rti | reserved => exact ⟨rfl, trivial⟩
  | getc | out | puts | inKey | putsp | halt => exact ⟨rfl, rfl⟩
  | _ =>
    simp (disch := omega) only [Instr.HasFields, Instr.opcode, encode, opField, drField, baseField, sr2Field, imm5Field,
      off6Field, off9Field, off11Field, vectField, field_or, field_place_same, field_place_disjoint, BitVec.or_zero,
      BitVec.zero_or, and_self]

/-- Settles O1: an encoded word has the fields of its instruction, and such a word decodes to it. -/
theorem decodeInvertsEncode : Obligations.DecodeInvertsEncode := fun i hi =>
  decode_of_hasFields hi (hasFields_encode i)

/-- Settles O4. -/
theorem everyWordDecodesToOneRow : Obligations.EveryWordDecodesToOneRow := fun w =>
  ⟨wellFormed_decode w, opcode_decode w⟩

/-- Settles O5: each word put together from a row's fields, whatever else it holds, has the fields of that row. -/
theorem everyFieldIsReadFromItsPlace : Obligations.EveryFieldIsReadFromItsPlace := by
  refine ⟨fun n z p i => decode_of_hasFields rfl ?br, fun d s t x => decode_of_hasFields rfl ?addReg,
    fun d s i => decode_of_hasFields rfl ?addImm, fun d i => decode_of_hasFields rfl ?ld,
    fun d i => decode_of_hasFields rfl ?st, fun i => decode_of_hasFields rfl ?jsr,
    fun s x y => decode_of_hasFields rfl ?jsrr, fun d s t x => decode_of_hasFields rfl ?andReg,
    fun d s i => decode_of_hasFields rfl ?andImm, fun d s i => decode_of_hasFields rfl ?ldr,
    fun d s i => decode_of_hasFields rfl ?str, fun x => decode_of_hasFields rfl ?rti,
    fun d s x => decode_of_hasFields rfl ?not, fun d i => decode_of_hasFields rfl ?ldi,
    fun d i => decode_of_hasFields rfl ?sti, fun x s y => decode_of_hasFields rfl ?jmp,
    fun x => decode_of_hasFields rfl ?reserved, fun d i => decode_of_hasFields rfl ?lea,
    fun x v hv => decode_of_hasFields (congrArg Bool.not hv) ?trap,
    fun x => ⟨decode_of_hasFields rfl ?getc, decode_of_hasFields rfl ?out, decode_of_hasFields rfl ?puts,
      decode_of_hasFields rfl ?inKey, decode_of_hasFields rfl ?putsp, decode_of_hasFields rfl ?halt⟩⟩
  all_goals
    simp (disch := omega) only [Instr.HasFields, Instr.opcode, Opcode.bits, opField, drField, baseField, sr2Field,
      imm5Field, off6Field, off9Field, off11Field, vectField, field, BitVec.extractLsb'_setWidth_of_le,
      BitVec.extractLsb'_append_eq_of_le, BitVec.extractLsb'_append_eq_of_add_le, BitVec.extractLsb'_eq_self, Nat.reduceSub,
      and_self]

/-! ### The ignored bits -/

/-- A field read and put back at its place keeps the word's bits there and clears the others. -/
theorem place_field (lo n : Nat) (w : Word) : place lo (field lo n w) = w &&& place lo (BitVec.allOnes n) := by
  apply BitVec.eq_of_getLsbD_eq
  intro i hi
  rw [BitVec.getLsbD_and, getLsbD_place, getLsbD_place, field, BitVec.getLsbD_extractLsb', BitVec.getLsbD_allOnes]
  by_cases h : lo ≤ i
  · simp [h, hi, Bool.and_comm]
  · simp [h]

/-- Settles O2: each row's fields, put back at their places, are the word under the mask of those places, which is the
complement of the row's ignored bits. -/
theorem encodeInvertsDecodeUpToIgnoredBits : Obligations.EncodeInvertsDecodeUpToIgnoredBits := by
  intro w
  have hop : (Opcode.ofBits (opField w)).bits = field 12 4 w := Opcode.bits_ofBits _
  unfold decode ignoredBits
  generalize Opcode.ofBits (opField w) = o at hop ⊢
  cases o with
  | add | and =>
    cases hmode : w[5] with
    | true =>
      have hbit : 1#1 = field 5 1 w := field_of_getElem hmode
      simp only [if_true, encode, hop, hbit, drField, baseField, imm5Field, place_field, ← BitVec.and_or_distrib_left]
      rfl
    | false =>
      have hbit : 0#1 = field 5 1 w := field_of_getElem hmode
      simp only [Bool.false_eq_true, if_false, encode, hop, hbit, drField, baseField, sr2Field, place_field,
        ← BitVec.and_or_distrib_left]
      rfl
  | jsr =>
    cases hmode : w[11] with
    | true =>
      have hbit : 1#1 = field 11 1 w := field_of_getElem hmode
      simp only [if_true, encode, hop, hbit, off11Field, place_field, ← BitVec.and_or_distrib_left]
      rfl
    | false =>
      have hbit : 0#1 = field 11 1 w := field_of_getElem hmode
      simp only [Bool.false_eq_true, if_false, encode, hop, hbit, baseField, place_field, ← BitVec.and_or_distrib_left]
      rfl
  | trap =>
    simp only [encode_decodeTrap, hop, vectField, place_field, ← BitVec.and_or_distrib_left]
    rfl
  | _ =>
    simp only [encode, hop, drField, baseField, off6Field, off9Field, ofBool_getElem, place_field,
      ← BitVec.and_or_distrib_left]
    rfl

theorem decode_clear_ignoredBits (w : Word) : decode (w &&& ~~~ ignoredBits w) = decode w := by
  rw [← encodeInvertsDecodeUpToIgnoredBits w]
  exact decodeInvertsEncode _ (wellFormed_decode w)

theorem clear_eq_of_xor {w w' m : Word} (h : (w ^^^ w') &&& ~~~ m = 0#16) : w' &&& ~~~ m = w &&& ~~~ m := by
  rw [eq_comm, ← BitVec.xor_eq_zero_iff, ← h]
  ext i hi
  simp [Bool.and_xor_distrib_right]

/-- Words that agree outside `m` agree in every field that `m` leaves alone. -/
theorem field_congr_of_clear {w w' m : Word} {lo n : Nat} (h : w' &&& ~~~ m = w &&& ~~~ m) (hm : field lo n m = 0#n)
    (hlo : lo + n ≤ 16) : field lo n w' = field lo n w := by
  have hclear (x : Word) : field lo n (x &&& ~~~ m) = field lo n x := by
    ext i hi
    have hmi : m.getLsbD (lo + i) = false := by simpa [field, hi] using congrArg (BitVec.getLsbD · i) hm
    have hlt : lo + i < 16 := by omega
    simp only [field, BitVec.getElem_extractLsb', BitVec.getLsbD_and, BitVec.getLsbD_not, hmi, hlt, decide_true,
      Bool.not_false, Bool.and_true]
  rw [← hclear w', h, hclear]

theorem getElem_congr_of_clear {w w' m : Word} (i : Nat) {hi : i < 16} (h : w' &&& ~~~ m = w &&& ~~~ m)
    (hm : field i 1 m = 0#1) : w'[i] = w[i] :=
  getElem_of_field ((field_congr_of_clear h hm hi).trans (ofBool_getElem w i hi).symm)

theorem opField_ignoredBits (w : Word) : opField (ignoredBits w) = 0#4 := by
  unfold ignoredBits
  cases Opcode.ofBits (opField w) with
  | add | and | jsr => dsimp only; split <;> rfl
  | _ => dsimp only; rfl

/-- Which bits are ignored depends on none of them: opcode and mode bit are no ignored bits (R63). -/
theorem ignoredBits_congr {w w' : Word} (h : w' &&& ~~~ ignoredBits w = w &&& ~~~ ignoredBits w) :
    ignoredBits w' = ignoredBits w := by
  have hop : opField w' = opField w := field_congr_of_clear h (opField_ignoredBits w) (by omega)
  unfold ignoredBits at h ⊢
  rw [hop]
  cases ho : Opcode.ofBits (opField w) with
  | add | and =>
    rw [ho] at h
    have hmode : w'[5] = w[5] := getElem_congr_of_clear 5 h (by dsimp only; split <;> rfl)
    rw [hmode]
  | jsr =>
    rw [ho] at h
    have hmode : w'[11] = w[11] := getElem_congr_of_clear 11 h (by dsimp only; split <;> rfl)
    rw [hmode]
  | _ => rfl

/-- Settles O3: cleared of their ignored bits, which are the same, the two words are one. -/
theorem ignoredBitsNeverMatter : Obligations.IgnoredBitsNeverMatter := by
  intro w w' h
  have hclear := clear_eq_of_xor h
  calc
    decode w' = decode (w' &&& ~~~ ignoredBits w') := (decode_clear_ignoredBits w').symm
    _ = decode (w &&& ~~~ ignoredBits w) := by rw [ignoredBits_congr hclear, hclear]
    _ = decode w := decode_clear_ignoredBits w

/-- Settles O6: each word by evaluation. -/
theorem sampleWordsDecodeAsTheSpecSays : Obligations.SampleWordsDecodeAsTheSpecSays := by
  unfold Obligations.SampleWordsDecodeAsTheSpecSays
  decide

end Sys2Proof

/-! PROOF. Aborted input (R77, R213), HALT (R177), and the execution loop (R75 to R78). -/

namespace Sys2Proof.Machine

/-! ### A cancelled read -/

/-- What goes on with a cancelled read is rolled back to the state `entry` the instruction entered with (R213). -/
theorem andThen_of_readCancels {s entry : State} {a : Word} {t : Terminal} (k : Word → State → Result)
    (h : ReadCancels s a t) : andThen entry (s.memRead a) k = .next (RolledBack entry t) := by
  rw [h.memRead, andThen_cancelled]
  rfl

theorem andThen_of_cancelsNext {s entry : State} {rest : List KeyEvent} (k : Byte → State → Result)
    (h : s.term.CancelsNext rest) :
    andThen entry s.readKey k = .next (RolledBack entry (s.term.withScript rest)) := by
  rw [readKey_of_cancelsNext h, andThen_cancelled]
  rfl

/-- Settles O37: each instruction goes on with the cancelled read, LDI also with its second one. -/
theorem cancelledInputRollsTheInstructionBack : Obligations.CancelledInputRollsTheInstructionBack := by
  intro s dr baseR off9 off6
  refine ⟨fun t h => ⟨?_, ?_, ?_⟩, fun t h => ?_, fun p u t hp h => ?_, fun rest h => ⟨?_, ?_⟩⟩
  · exact andThen_of_readCancels _ h
  · exact andThen_of_readCancels _ h
  · exact andThen_of_readCancels _ h
  · exact andThen_of_readCancels _ h
  · exact (exec_ldi_of_readsAs dr hp).trans (andThen_of_readCancels _ h)
  · exact andThen_of_cancelsNext (s := s.link) _ h
  · exact andThen_of_cancelsNext (s := { s.link with term := s.term.outAll s.params.inPrompt }) _ h

/-! ### A step that ends Aborted -/

/-- A read leaves memory alone, or it has put a key into the backing cell and gives that key, zero-extended (R45). -/
theorem ReadsAs.mem_eq_or_key {s u : State} {a v : Word} (h : ReadsAs s a v u) :
    u.mem = s.mem ∨ ∃ k : Byte, v = 0x00#8 ++ k := by
  cases h with
  | data k r _ => exact .inr ⟨k, rfl⟩
  | _ => exact .inl rfl

/-- A keystroke fetched as an instruction is a BR, which waits for no key (R66, R100). -/
theorem not_mayWait_decode_key (k : Byte) : ¬ (decode (0x00#8 ++ k)).mayWait := by
  have hop : Opcode.ofBits (opField (0x00#8 ++ k)) = .br := by revert k; decide
  unfold decode
  rw [hop]
  exact not_false

theorem Completes.status_ne_aborted {i : Instr} {s t : State} (h : Completes i s t) (hs : s.status = .running)
    (a : Word) : t.status ≠ .aborted a := by
  rw [h.status]
  obtain hst | ⟨-, hst⟩ | ⟨-, hst⟩ | ⟨v, -, -, hst⟩ := i.statusAfter_cases s <;> rw [hst]
  · rw [hs]; nofun
  · nofun
  · nofun
  · nofun

/-- Settles O48: an aborted instruction is rolled back to the state after its fetch, and an instruction that can wait was not
fetched from KBDR_ADDR; a cancelled fetch has changed the terminal alone. -/
theorem abortedStepLeavesTheCoreAsBefore : Obligations.AbortedStepLeavesTheCoreAsBefore := by
  intro s t a hs h ha
  obtain ⟨bs, hout⟩ := (step_forward h).term.output
  have hparams := (step_forward h).params
  obtain ⟨_, n, -, -, rfl⟩ | ⟨-, w, u, hr, hx⟩ | ⟨-, t', -, rfl⟩ := step_next h
  · cases ha
  · have hread := readsAs_of_memRead hr
    have hu := hread.inputFrame
    obtain hc | ⟨hw, t', -, rfl⟩ := exec_answers _ _ t hx
    · exact absurd ha (hc.status_ne_aborted (hu.status.trans hs) a)
    · have haddr : u.advance.fetchAddr = s.pc := u.fetchAddr_advance.trans hu.pc
      have hmem : u.mem = s.mem := hread.mem_eq_or_key.resolve_right fun ⟨k, hk⟩ => not_mayWait_decode_key k (hk ▸ hw)
      exact ⟨(Status.aborted.inj ha).symm.trans haddr, haddr, hu.regs, hu.cond, hmem, hparams, bs, hout.symm⟩
  · exact ⟨(Status.aborted.inj ha).symm, rfl, rfl, rfl, rfl, rfl, bs, hout.symm⟩

/-! ### HALT -/

/-- Settles O32: what HALT answers, and `not_step_of_ended` for what follows. -/
theorem haltWritesTheNoticeAndHalts : Obligations.HaltWritesTheNoticeAndHalts := fun s =>
  ⟨_, rfl, link_spec s s.pc, rfl, rfl, rfl, fun _ => not_step_of_ended (.inl rfl)⟩

/-! ### The loop -/

/-- Settles O39: the step is `step_of_readsAs`; the example's word is JSR #5. -/
theorem stepRunsTheDecodedInstruction : Obligations.StepRunsTheDecodedInstruction := by
  refine ⟨fun s u w i hs hr hd => ⟨hd ▸ step_of_readsAs hs hr, BitVec.toNat_add ..⟩, fun s hs hpc hw => ?_⟩
  have hword : s.mem.read s.pc.toNat = 0x4805#16 := by rw [hpc]; exact hw
  have hread : ReadsAs s s.pc 0x4805#16 s := hword ▸ .storage s.pc (by rw [hpc]; decide)
  have hjsr : decode 0x4805#16 = .jsr 5#11 := by decide
  have hstep : step s = .next { s.advance.link with pc := s.advance.link.pcRel11 5#11 } := by
    rw [step_of_readsAs hs hread, hjsr]
    rfl
  refine ⟨_, hstep, ?_, ?_⟩
  · show s.advance.link.reg 7#3 = _
    rw [reg_link_same, State.advance_pc, hpc]
    rfl
  · show s.pc + 1#16 + sext 5#11 = _
    rw [hpc]
    decide

/-- Settles O40: the fetch is a bridged read, and a rollback goes to the state before the increment. -/
theorem fetchFromTheKeyboardCanAbortOrHold : Obligations.FetchFromTheKeyboardCanAbortOrHold := by
  intro s hs
  have hstep : step s = s.fetchThen fun w t => exec (decode w) t := by rw [step, hs]
  refine ⟨fun t h => ?_, fun h => ?_⟩
  · have hback : RolledBack s.advance t = { s with status := .aborted s.pc, term := t } := by
      have haddr : s.advance.pc - 1#16 = s.pc := s.fetchAddr_advance
      rw [RolledBack, haddr]
      rfl
    rw [hstep, ← hback]
    exact andThen_of_readCancels _ h
  · rw [hstep]
    exact andThen_of_readHolds _ h

/-- Settles O42, from what a step does in each status that is not Running. -/
theorem noStepAfterTheRunEnds : Obligations.NoStepAfterTheRunEnds := by
  refine fun s => ⟨fun hs _ => not_step_of_ended hs, fun a hs => ⟨fun hn t => ?_, fun n hn => ?_⟩⟩
  · rw [step_of_aborted hs, State.resume, hn]
    nofun
  · rw [step_of_aborted hs, State.resume, hn]

end Sys2Proof.Machine

/-! PROOF. Control transfer: BR, JSR, JSRR and JMP (40_control.md R100 to R105). -/

namespace Sys2Proof.Machine

/-! ### BR -/

/-- The branch test is the bitwise one of R100: the condition bits, as a word, meet the word of COND (R26, R29; D28). -/
theorem branchTaken_iff (n z p : Bool) (c : Cond) :
    branchTaken n z p c = true ↔
      (BitVec.ofBool n ++ BitVec.ofBool z ++ BitVec.ofBool p).setWidth 16 &&& c.toWord ≠ 0#16 := by
  cases c <;> revert n z p <;> decide

theorem exec_br_of_taken {n z p : Bool} {s : State} (off9 : BitVec 9) (h : branchTaken n z p s.cond = true) :
    exec (.br n z p off9) s = .next { s with pc := s.pcRel9 off9 } := if_pos h

theorem exec_br_of_not_taken {n z p : Bool} {s : State} (off9 : BitVec 9) (h : ¬ branchTaken n z p s.cond = true) :
    exec (.br n z p off9) s = .next s := if_neg h

/-- Settles O22: the branch is taken exactly when its condition bits meet COND, by `branchTaken_iff`. -/
theorem branchFollowsItsConditionBits : Obligations.BranchFollowsItsConditionBits := by
  intro s n z p off9
  have hcond : s.slot 9 = s.cond.toWord := rfl
  have hiff := branchTaken_iff n z p s.cond
  rw [hcond]
  by_cases htaken : branchTaken n z p s.cond = true
  · have hmeet := hiff.mp htaken
    exact ⟨_, exec_br_of_taken off9 htaken, rfl, fun _ => toNat_add_sext s.pc off9, fun h => absurd h hmeet⟩
  · have hmiss := mt hiff.mpr htaken
    exact ⟨_, exec_br_of_not_taken off9 htaken, rfl, fun h => absurd h hmiss, fun _ => rfl⟩

/-! ### JSR and JSRR -/

/-- Settles O23: the link write leaves PC, from which the offset then counts. -/
theorem jsrLinksAndJumps : Obligations.JsrLinksAndJumps := fun s off11 =>
  ⟨_, rfl, link_spec s (s.link.pcRel11 off11), toNat_add_sext s.link.pc off11⟩

/-- Settles O24: BaseR is read in the linked state, where R7 is PC and every other register is as before. -/
theorem jsrrLinksBeforeReadingBase : Obligations.JsrrLinksBeforeReadingBase := by
  refine fun s baseR => ⟨_, rfl, link_spec s (s.link.reg baseR), fun hother => ?_, fun hlink => ?_⟩
  · exact State.reg_setReg_other s s.pc hother
  · exact hlink ▸ reg_link_same s

/-! ### JMP -/

/-- Settles O25: JMP writes PC alone; RET's word is one decoded word. -/
theorem jmpGoesToItsBase : Obligations.JmpGoesToItsBase :=
  ⟨fun _ _ => ⟨_, rfl, rfl, rfl⟩, by decide⟩

end Sys2Proof.Machine

/-! PROOF. Operate instructions: ADD, AND and NOT (41_operate.md R120 to R125). Each answers one `writeResult`, so its
completion, flag and frame are `writeResult_spec`; what is left is the result's own arithmetic. -/

namespace Sys2Proof.Machine

/-- Settles O13: addition modulo 2^16, the immediate as a signed number by `toNat_add_sext`. -/
theorem addWritesTheSumModulo65536 : Obligations.AddWritesTheSumModulo65536 := fun s dr sr1 =>
  ⟨fun sr2 => ⟨_, _, rfl, writeResult_spec s dr (s.reg sr1 + s.reg sr2), BitVec.toNat_add ..⟩,
    fun imm5 => ⟨_, _, rfl, writeResult_spec s dr (s.reg sr1 + sext imm5), toNat_add_sext ..⟩⟩

/-- Bit `i` of a sign-extended immediate: its own bit below 5, its sign bit 4 from there on (R9, R64). -/
theorem getLsbD_sext_imm5 (imm5 : BitVec 5) {i : Nat} (hi : i < 16) :
    (sext imm5).getLsbD i = imm5.getLsbD (if i < 5 then i else 4) := by
  rw [getLsbD_sext imm5 hi, BitVec.msb_eq_getLsbD_last, apply_ite imm5.getLsbD]

/-- Settles O14: the conjunction bit by bit, the immediate's bits by `getLsbD_sext_imm5`. -/
theorem andWritesTheBitwiseConjunction : Obligations.AndWritesTheBitwiseConjunction := by
  refine fun s dr sr1 => ⟨fun sr2 => ?_, fun imm5 => ?_⟩
  · exact ⟨_, _, rfl, writeResult_spec s dr (s.reg sr1 &&& s.reg sr2), fun _ => BitVec.getLsbD_and⟩
  · refine ⟨_, _, rfl, writeResult_spec s dr (s.reg sr1 &&& sext imm5), fun i hi => ?_⟩
    rw [BitVec.getLsbD_and, getLsbD_sext_imm5 imm5 hi]

/-- Settles O15: the complement of a word is 65535 minus it, by `BitVec.toNat_not`. -/
theorem notWritesTheComplement : Obligations.NotWritesTheComplement := fun s dr sr =>
  ⟨_, _, rfl, writeResult_spec s dr (~~~ s.reg sr), BitVec.toNat_not⟩

end Sys2Proof.Machine

/-! PROOF. Completion of LEA, LD, LDR and LDI (42_load_store.md R140, R142, R144, R146). Each ends in one `writeResult`, whose
result, flag and frame are `writeResult_spec`; a load writes into the state its bridged read leaves. -/

namespace Sys2Proof.Machine

/-- Settles O16: LEA writes its PC-relative address, a sum modulo 2^16 by `toNat_add_sext`. -/
theorem leaWritesTheAddressAndTouchesNoMemory : Obligations.LeaWritesTheAddressAndTouchesNoMemory := fun s dr off9 =>
  ⟨_, _, rfl, writeResult_spec s dr (s.pcRel9 off9), toNat_add_sext s.pc off9⟩

/-- What goes on with a read that gives a word goes on with that word, in the state the read leaves (R43). -/
theorem andThen_of_readsAs {s u entry : State} {a v : Word} (k : Word → State → Result) (h : ReadsAs s a v u) :
    andThen entry (s.memRead a) k = k v u := by
  rw [h.memRead, andThen_value]

/-- Settles O17: LD and LDR go on with the bridged read of their effective address. -/
theorem directLoadsWriteTheWordRead : Obligations.DirectLoadsWriteTheWordRead := by
  refine fun s u v dr => ⟨fun off9 h => ?_, fun baseR off6 h => ?_⟩
  · exact ⟨_, andThen_of_readsAs _ h, writeResult_spec u dr v⟩
  · exact ⟨_, andThen_of_readsAs _ h, writeResult_spec u dr v⟩

/-- Settles O18: LDI goes on with the pointer read (`exec_ldi_of_readsAs`), then with the read through it. -/
theorem indirectLoadWritesTheWordPointedTo : Obligations.IndirectLoadWritesTheWordPointedTo :=
  fun _ _ w _ v dr _ hpointer hdata =>
    ⟨_, (exec_ldi_of_readsAs dr hpointer).trans (andThen_of_readsAs _ hdata), writeResult_spec w dr v⟩

end Sys2Proof.Machine

/-! PROOF. TRAP and the services that read no string (43_trap.md R170 to R173, R175, R178): the link write, then the
service. -/

namespace Sys2Proof.Machine

/-! ### TRAP -/

/-- Settles O26: the vector's arm is the service's own instruction; OUT's and HALT's services complete after the link. -/
theorem trapSelectsItsService : Obligations.TrapSelectsItsService := fun s =>
  ⟨rfl, rfl, rfl, rfl, rfl, rfl, ⟨_, rfl, reg_link_same s, rfl, rfl⟩, _, rfl, reg_link_same s, rfl, rfl⟩

/-- The service vectors are the numbers from 0x20 to 0x25 (R171). -/
theorem isServiceVector_eq_false_iff (v : BitVec 8) :
    isServiceVector v = false ↔ v.toNat < 0x20 ∨ 0x25 < v.toNat := by
  simp only [isServiceVector, BitVec.le_def, BitVec.toNat_ofNat, Bool.and_eq_false_iff, decide_eq_false_iff_not]
  omega

theorem serviceOf_of_no_service {v : BitVec 8} (hv : isServiceVector v = false) : serviceOf v = serviceIllegal v := by
  have hne := mt (isServiceVector_iff v).mpr (ne_true_of_eq_false hv)
  simp only [not_or] at hne
  simp only [serviceOf, hne, if_false]

/-- A vector with no service raises IllegalTrap after the link (R178). -/
theorem exec_trap_of_no_service {v : BitVec 8} (hv : isServiceVector v = false) (s : State) :
    exec (.trap v) s = .next (s.link.raise (.illegalTrap v)) := by
  show serviceOf v s s.link = _
  rw [serviceOf_of_no_service hv]
  rfl

/-- Settles O27: the state raised is the linked one but for its status. -/
theorem illegalTrapFaultsAfterTheLink : Obligations.IllegalTrapFaultsAfterTheLink := fun s v hv =>
  ⟨_, exec_trap_of_no_service ((isServiceVector_eq_false_iff v).mpr hv) s, link_spec s s.pc, rfl, rfl⟩

/-! ### OUT -/

/-- The link write leaves the services' operand register (R21). -/
theorem reg_link_service (s : State) : s.link.reg serviceReg = s.reg 0#3 :=
  State.reg_setReg_other s s.pc (by decide)

/-- Settles O30: the byte written is the low byte of R0, which the link leaves. -/
theorem outWritesTheLowByte : Obligations.OutWritesTheLowByte := by
  refine fun s => ⟨_, rfl, link_spec s s.pc, rfl, lowByte (s.reg 0#3), toNat_lowByte _, ?_⟩
  rw [← reg_link_service]
  rfl

/-! ### GETC and IN -/

theorem andThen_of_nextKeyIs {s entry : State} {b : Byte} {rest : List KeyEvent} (k : Byte → State → Result)
    (h : s.term.NextKeyIs b rest) : andThen entry s.readKey k = k b (s.withScript rest) := by
  rw [State.readKey, readKey_key.mpr h]
  rfl

/-- What GETC and IN, entered with `s`, leave once the key `k` has come and the terminal is `x` (R172, R175). -/
def State.keyTaken (s : State) (x : Terminal) (k : Byte) : State :=
  { s.link with term := x }.writeResult serviceReg (zext k)

section KeyTaken

variable (s : State) (x : Terminal) (k : Byte)

theorem reg_keyTaken_zero : (s.keyTaken x k).reg 0#3 = 0x00#8 ++ k :=
  (State.reg_setReg_same _ serviceReg (zext k)).trans (zext_eq_wordOf k)

theorem reg_keyTaken_seven : (s.keyTaken x k).reg 7#3 = s.pc :=
  (State.reg_setReg_other _ (zext k) (by decide)).trans (reg_link_same s)

theorem reg_keyTaken_other {r : RegField} (h0 : r ≠ 0#3) (h7 : r ≠ 7#3) : (s.keyTaken x k).reg r = s.reg r :=
  (State.reg_setReg_other _ (zext k) h0).trans (State.reg_setReg_other s s.pc h7)

theorem cond_keyTaken : (s.keyTaken x k).cond = if k = 0x00#8 then .z else .p := condOf_zext k

end KeyTaken

theorem exec_getc_of_nextKeyIs {s : State} {k : Byte} {rest : List KeyEvent} (h : s.term.NextKeyIs k rest) :
    exec .getc s = .next (s.keyTaken (s.term.withScript rest) k) :=
  andThen_of_nextKeyIs (s := s.link) _ h

/-- The prompt is written before the key is read, the key echoed after it (R175, D25). -/
theorem exec_inKey_of_nextKeyIs {s : State} {k : Byte} {rest : List KeyEvent} (h : s.term.NextKeyIs k rest) :
    exec .inKey s = .next (s.keyTaken (((s.term.outAll s.params.inPrompt).withScript rest).out k) k) :=
  andThen_of_nextKeyIs (s := { s.link with term := s.term.outAll s.params.inPrompt }) _ h

/-- Settles O29: what GETC leaves, field by field. -/
theorem getcReadsOneKeyWithoutEcho : Obligations.GetcReadsOneKeyWithoutEcho := fun s k _ h =>
  ⟨_, exec_getc_of_nextKeyIs h, reg_keyTaken_zero s _ k, reg_keyTaken_seven s _ k,
    fun _ => reg_keyTaken_other s _ k, cond_keyTaken s _ k, rfl, rfl, rfl, rfl, rfl⟩

/-- Settles O31: as GETC, with the prompt and the echo in the output. -/
theorem inPromptsReadsAndEchoes : Obligations.InPromptsReadsAndEchoes := fun s k _ h =>
  ⟨_, exec_inKey_of_nextKeyIs h, reg_keyTaken_zero s _ k, reg_keyTaken_seven s _ k,
    fun _ => reg_keyTaken_other s _ k, cond_keyTaken s _ k, rfl, rfl, rfl, rfl, rfl⟩

end Sys2Proof.Machine

/-! PROOF. PUTS and PUTSP (R174, R176): the walk of the model and the loops of the rules, each way. The loops know no fuel; the
walk's fuel decides exactly whether they end (`walk_none`), and then which of the three ways. -/

namespace Sys2Proof.Machine

/-! ### A format as the walk's `emit` -/

/-- What a round of the walk does with the word `w` of a string in format `f`. -/
def StringFormat.emit (f : StringFormat) (w : Word) : Option (List Byte) :=
  if f.ends w then none else some (f.bytes w)

theorem StringFormat.emit_of_ends {f : StringFormat} {w : Word} (h : f.ends w = true) : f.emit w = none := if_pos h

theorem StringFormat.emit_of_goes_on {f : StringFormat} {w : Word} (h : f.ends w = false) :
    f.emit w = some (f.bytes w) := by
  rw [emit, h]
  rfl

theorem emit_putsFormat : putsFormat.emit = putsEmit := by
  funext w
  simp [StringFormat.emit, putsFormat, putsEmit, setWidth_eq_lowByte]

/-- The high byte is the shifted word, and zero exactly if that is (R176). -/
theorem ushiftRight_eq_zero_iff (w : Word) : w >>> 8 = 0x0000#16 ↔ highByte w = 0x00#8 := by
  rw [← BitVec.toNat_inj, ← BitVec.toNat_inj, toNat_highByte, BitVec.toNat_ushiftRight, Nat.shiftRight_eq_div_pow]
  rfl

theorem emit_putspFormat : putspFormat.emit = putspEmit := by
  funext w
  simp only [StringFormat.emit, putspFormat, putspEmit, setWidth_eq_lowByte, lowByte_ushiftRight,
    ushiftRight_eq_zero_iff, beq_iff_eq]
  split
  · rfl
  · split <;> rfl

/-! ### The walk and the loops -/

section Walk

variable {f : StringFormat} {p w : Word} {s u : State} {t : Terminal} {n : Nat} {r : Read Unit}

theorem walk_of_ends (hr : ReadsAs s p w u) (hw : f.ends w = true) : walk f.emit (n + 1) p s = some (.value () u) :=
  walk_stop hr.memRead (f.emit_of_ends hw)

theorem walk_of_goes_on (hr : ReadsAs s p w u) (hw : f.ends w = false) :
    walk f.emit (n + 1) p s = walk f.emit n (p + 1#16) (u.wrote (f.bytes w)) :=
  walk_round hr.memRead (f.emit_of_goes_on hw)

/-- What a loop of R174 or R176 comes to: its end, a cancelled read, or a held one. -/
def StringComesTo (f : StringFormat) (p : Word) (s : State) : Read Unit → Prop
  | .value () t => StringRuns f p s t
  | .cancelled t => StringCancels f p s t
  | .held => StringHolds f p s

theorem StringComesTo.later (hr : ReadsAs s p w u) (hw : f.ends w = false)
    (h : StringComesTo f (p + 1#16) (u.wrote (f.bytes w)) r) : StringComesTo f p s r := by
  cases r with
  | value _ t => exact .char hr hw h
  | cancelled t => exact .later hr hw h
  | held => exact .later hr hw h

/-- Whatever the walk answers, the loop comes to it. -/
theorem stringComesTo_of_walk (h : walk f.emit n p s = some r) : StringComesTo f p s r := by
  induction n generalizing p s with
  | zero => cases h
  | succ n ih =>
    obtain ⟨w, u, hr, -⟩ | ⟨t, hc, hm⟩ | ⟨hh, hm⟩ := memRead_cases s p
    · cases hw : f.ends w with
      | true => cases (walk_of_ends hr hw).symm.trans h; exact .stop hr hw
      | false => exact .later hr hw (ih ((walk_of_goes_on hr hw).symm.trans h))
    · rw [walk, hm] at h; cases h; exact .here hc
    · rw [walk, hm] at h; cases h; exact .here hh

theorem StringRuns.walk {v : State} (h : StringRuns f p s v) : ∃ n, walk f.emit n p s = some (.value () v) := by
  induction h with
  | stop hr hw => exact ⟨1, walk_of_ends hr hw⟩
  | char hr hw _ ih =>
    obtain ⟨n, hn⟩ := ih
    exact ⟨n + 1, (walk_of_goes_on hr hw).trans hn⟩

theorem StringCancels.walk (h : StringCancels f p s t) : ∃ n, walk f.emit n p s = some (.cancelled t) := by
  induction h with
  | here hc => exact ⟨1, by rw [Machine.walk, hc.memRead]⟩
  | later hr hw _ ih =>
    obtain ⟨n, hn⟩ := ih
    exact ⟨n + 1, (walk_of_goes_on hr hw).trans hn⟩

theorem StringHolds.walk (h : StringHolds f p s) : ∃ n, walk f.emit n p s = some .held := by
  induction h with
  | here hh => exact ⟨1, by rw [Machine.walk, hh.memRead]⟩
  | later hr hw _ ih =>
    obtain ⟨n, hn⟩ := ih
    exact ⟨n + 1, (walk_of_goes_on hr hw).trans hn⟩

/-- Whatever the loop comes to, the walk answers with some fuel. -/
theorem StringComesTo.walk (h : StringComesTo f p s r) : ∃ n, walk f.emit n p s = some r := by
  cases r with
  | value _ t => exact StringRuns.walk h
  | cancelled t => exact StringCancels.walk h
  | held => exact StringHolds.walk h

/-- A walk without an answer within `n` words is the loop going on past them. -/
theorem walk_eq_none_iff : walk f.emit n p s = none ↔ ∃ t, StringRounds f n p s t := by
  constructor
  · intro h
    induction n generalizing p s with
    | zero => exact ⟨s, .zero⟩
    | succ n ih =>
      obtain ⟨w, u, hr, -⟩ | ⟨t, -, hm⟩ | ⟨-, hm⟩ := memRead_cases s p
      · cases hw : f.ends w with
        | true => cases (walk_of_ends hr hw).symm.trans h
        | false =>
          obtain ⟨t, ht⟩ := ih ((walk_of_goes_on hr hw).symm.trans h)
          exact ⟨t, .succ hr hw ht⟩
      · rw [walk, hm] at h; cases h
      · rw [walk, hm] at h; cases h
  · rintro ⟨t, h⟩
    induction h with
    | zero => rfl
    | succ hr hw _ ih => exact (walk_of_goes_on hr hw).trans ih

end Walk

/-! ### The fuel -/

section Fuel

variable {emit : Word → Option (List Byte)} {p : Word} {s : State} {r : Read Unit} {n m : Nat}

theorem walk_mono (hnm : n ≤ m) (h : walk emit n p s = some r) : walk emit m p s = some r := by
  induction n generalizing m p s with
  | zero => cases h
  | succ n ih =>
    obtain ⟨m, rfl⟩ := Nat.exists_eq_add_of_lt hnm
    cases hm : s.memRead p with
    | value w t =>
      cases he : emit w with
      | none => rw [walk_stop hm he] at h ⊢; exact h
      | some bs => rw [walk_round hm he] at h ⊢; exact ih (Nat.le_add_right n m) h
    | cancelled t => rw [walk, hm] at h ⊢; exact h
    | held => rw [walk, hm] at h ⊢; exact h

/-- An answer the walk gives with some fuel it gives with the service's (log 15). -/
theorem walk_walkFuel_of_walk (h : walk emit n p s = some r) : walk emit s.walkFuel p s = some r := by
  cases hfuel : walk emit s.walkFuel p s with
  | none =>
    have hnone := (walk_none emit _ p s (walkBound_le_walkFuel p s) hfuel).1 n
    cases hnone.symm.trans h
  | some r' => exact (walk_mono (Nat.le_max_left ..) hfuel).symm.trans (walk_mono (Nat.le_max_right ..) h)

end Fuel

theorem walk_walkFuel_eq_some_iff {f : StringFormat} {p : Word} {s : State} {r : Read Unit} :
    walk f.emit s.walkFuel p s = some r ↔ StringComesTo f p s r :=
  ⟨stringComesTo_of_walk, fun h => h.walk.elim fun _ => walk_walkFuel_of_walk⟩

theorem walk_walkFuel_eq_none_iff {f : StringFormat} {p : Word} {s : State} :
    walk f.emit s.walkFuel p s = none ↔ StringNeverEnds f p s :=
  ⟨fun h n => walk_eq_none_iff.mp ((walk_none f.emit _ p s (walkBound_le_walkFuel p s) h).1 n),
    fun h => walk_eq_none_iff.mpr (h _)⟩

/-! ### The services -/

section StringService

variable {f : StringFormat} {i : Instr} (hi : (f = putsFormat ∧ i = .puts) ∨ (f = putspFormat ∧ i = .putsp)) (s : State)

include hi

theorem exec_eq_serviceString : exec i s = serviceString f.emit s s.link := by
  obtain ⟨rfl, rfl⟩ | ⟨rfl, rfl⟩ := hi
  · rw [emit_putsFormat]; rfl
  · rw [emit_putspFormat]; rfl

/-- A string service goes on with what its loop comes to (R174, R176). -/
theorem exec_of_stringComesTo {r : Read Unit} (h : StringComesTo f (s.reg 0#3) s.link r) :
    exec i s = andThen s r fun _ t => .next t := by
  rw [exec_eq_serviceString hi, serviceString, reg_link_service, walk_walkFuel_eq_some_iff.mpr h]

theorem exec_of_stringNeverEnds (h : StringNeverEnds f (s.reg 0#3) s.link) : exec i s = .fault .walkUnending := by
  rw [exec_eq_serviceString hi, serviceString, reg_link_service, walk_walkFuel_eq_none_iff.mpr h]

end StringService

/-- Every loop has one of the four outcomes: the walk with the service's fuel says which. -/
theorem string_outcomes (f : StringFormat) (p : Word) (s : State) :
    (∃ t, StringRuns f p s t) ∨ (∃ t, StringCancels f p s t) ∨ StringHolds f p s ∨ StringNeverEnds f p s := by
  cases h : walk f.emit s.walkFuel p s with
  | none => exact .inr (.inr (.inr (walk_walkFuel_eq_none_iff.mp h)))
  | some r =>
    have hr := walk_walkFuel_eq_some_iff.mp h
    cases r with
    | value _ t => exact .inl ⟨t, hr⟩
    | cancelled t => exact .inr (.inl ⟨t, hr⟩)
    | held => exact .inr (.inr (.inl hr))

/-- Settles O34: each outcome of the loop is the service's, and there is no other. -/
theorem stringServicesFollowTheirLoops : Obligations.StringServicesFollowTheirLoops := fun s f _ hi =>
  ⟨fun t h => exec_of_stringComesTo hi s (r := .value () t) h,
    fun t h => exec_of_stringComesTo hi s (r := .cancelled t) h,
    fun h => exec_of_stringComesTo hi s (r := .held) h,
    exec_of_stringNeverEnds hi s, string_outcomes f (s.reg 0#3) s.link⟩

/-! ### Strings in ordinary storage -/

/-- From `p` on, wrapping at the top, `m` holds the words `ws` in ordinary storage. -/
def HoldsWords (m : Memory) (p : Word) (ws : List Word) : Prop :=
  ∀ k (h : k < ws.length), Ordinary (p + BitVec.ofNat 16 k) ∧ m.read (p + BitVec.ofNat 16 k).toNat = ws[k]

theorem HoldsWords.readsAs {s : State} {p w : Word} {ws : List Word} (h : HoldsWords s.mem p (w :: ws)) :
    ReadsAs s p w s := by
  obtain ⟨hp, hw⟩ := h 0 (Nat.succ_pos _)
  rw [BitVec.add_zero] at hp hw
  have hread := ReadsAs.storage (s := s) p hp
  rwa [hw] at hread

theorem HoldsWords.tail {m : Memory} {p w : Word} {ws : List Word} (h : HoldsWords m p (w :: ws)) :
    HoldsWords m (p + 1#16) ws := by
  intro k hk
  have haddr : p + 1#16 + BitVec.ofNat 16 k = p + BitVec.ofNat 16 (k + 1) := by
    rw [BitVec.add_assoc, ← BitVec.ofNat_add, Nat.add_comm]
  rw [haddr]
  exact h (k + 1) (Nat.succ_lt_succ hk)

@[simp] theorem State.wrote_nil (s : State) : s.wrote [] = s := by simp [wrote]

@[simp] theorem State.wrote_wrote (s : State) (bs cs : List Byte) : (s.wrote bs).wrote cs = s.wrote (bs ++ cs) := by
  simp [wrote]

/-- The loop over a string in ordinary storage writes its words' bytes in order and changes nothing else. -/
theorem stringRuns_of_holdsWords {f : StringFormat} {ws : List Word} {last : Word} {p : Word} {s : State}
    (hm : HoldsWords s.mem p (ws ++ [last])) (hws : ∀ w ∈ ws, f.ends w = false) (hlast : f.ends last = true) :
    StringRuns f p s (s.wrote (ws.flatMap f.bytes)) := by
  induction ws generalizing p s with
  | nil =>
    rw [List.flatMap_nil, State.wrote_nil]
    exact .stop hm.readsAs hlast
  | cons w ws ih =>
    obtain ⟨hw, hws⟩ := List.forall_mem_cons.mp hws
    rw [List.flatMap_cons, ← State.wrote_wrote]
    exact .char hm.readsAs hw (ih hm.tail hws)

/-- Settles O33: the loop over such a string, from `stringRuns_of_holdsWords`, is what the service answers. -/
theorem stringServicesPrintOrdinaryMemory : Obligations.StringServicesPrintOrdinaryMemory :=
  fun s _ _ _ _ hi hm hws hlast =>
    exec_of_stringComesTo hi s (r := .value () _) (stringRuns_of_holdsWords (s := s.link) hm hws hlast)

end Sys2Proof.Machine

/-! PROOF. The illegal opcodes RTI and reserved (44_reserved.md R200, R201): each raises IllegalOpcode with its own opcode. -/

namespace Sys2Proof.Machine

theorem exec_rti (s : State) : exec .rti s = .next (s.raise (.illegalOpcode 8#4)) := rfl

theorem exec_reserved (s : State) : exec .reserved s = .next (s.raise (.illegalOpcode 13#4)) := rfl

/-- A fault is recorded with the fetch address in the status, and nothing else is touched (R211, R219). -/
theorem raise_spec (s : State) (c : FaultCause) :
    { s.raise c with status := s.status } = s ∧ (s.raise c).status = .faulted c (s.pc - 1#16) :=
  ⟨rfl, State.raise_status s c⟩

/-- Settles O28: both opcodes answer the state raised, which `raise_spec` describes. -/
theorem illegalOpcodesFault : Obligations.IllegalOpcodesFault := fun s =>
  ⟨⟨_, exec_rti s, raise_spec s (.illegalOpcode 8#4)⟩, ⟨_, exec_reserved s, raise_spec s (.illegalOpcode 13#4)⟩⟩

end Sys2Proof.Machine

/-! PROOF. The fatal faults at the step (60_exceptions.md R211, R212), the start of a session (R214, R240, R242), and the exit
statuses (R210, R225). -/

namespace Sys2Proof.Machine

/-! ### Illegal words -/

/-- A fault raised by the word fetched at `a` leaves PC at `a + 1` and records `a` (R211, R212, R219). -/
theorem raise_of_pc_eq_succ {s : State} {a : Word} (c : FaultCause) (h : s.pc = a + 1#16) :
    s.raise c = { s with status := .faulted c a } := by
  have haddr : s.fetchAddr = a := by rw [State.fetchAddr, h, BitVec.add_sub_cancel]
  rw [State.raise, haddr]

theorem decode_of_opcode_eight {w : Word} (h : w.extractLsb' 12 4 = 8#4) : decode w = .rti :=
  decode_of_hasFields (i := .rti) rfl ⟨h, trivial⟩

theorem decode_of_opcode_thirteen {w : Word} (h : w.extractLsb' 12 4 = 13#4) : decode w = .reserved :=
  decode_of_hasFields (i := .reserved) rfl ⟨h, trivial⟩

/-- A TRAP word whose low byte selects no service keeps its vector (R64, R171, R178). -/
theorem decode_of_illegal_vector {w : Word} (hop : w.extractLsb' 12 4 = 15#4)
    (hv : isServiceVector (w.extractLsb' 0 8) = false) : decode w = .trap (w.extractLsb' 0 8) :=
  decode_of_hasFields (Bool.not_eq_true' _ ▸ hv) ⟨hop, rfl⟩

/-- Settles O41: the step runs the decoded word in the fetched state, and raising there records the fetch address. -/
theorem illegalWordsFaultAtTheirFetchAddress : Obligations.IllegalWordsFaultAtTheirFetchAddress := by
  intro s u w hs hr
  rw [step_of_readsAs hs hr]
  refine ⟨fun hop => ?_, fun hop hvect => ?_⟩
  · obtain h | h := hop
    · rw [decode_of_opcode_eight h, exec_rti, raise_of_pc_eq_succ _ rfl, h]
    · rw [decode_of_opcode_thirteen h, exec_reserved, raise_of_pc_eq_succ _ rfl, h]
  · have hv : isServiceVector (w.extractLsb' 0 8) = false :=
      (isServiceVector_eq_false_iff _).mpr (by rw [BitVec.extractLsb'_toNat]; exact hvect)
    rw [decode_of_illegal_vector hop hv, exec_trap_of_no_service hv, raise_of_pc_eq_succ _ rfl]
    rfl

/-! ### The start of a session -/

/-- The default exit statuses are distinct and non-zero (log 13). -/
theorem default_params_wf : Params.default.Wf := by decide

/-- Whatever canonical memory a load leaves, the reset state with it meets the invariant. -/
theorem inv_reset_withMem {m : Memory} (hm : m.wf = true) : { State.reset with mem := m }.Inv where
  memory := hm
  status := trivial
  params := default_params_wf

/-- Settles O58: the session is the reset state but for its memory, and O56 says what the load has put there. -/
theorem sessionStartsAtTheEntryPoint : Obligations.SessionStartsAtTheEntryPoint := by
  refine ⟨rfl, rfl, fun bytes origin ws h => ?_⟩
  obtain ⟨hwf, hread⟩ := loadPutsTheImageAtItsOrigin State.reset.mem origin ws Memory.wf_nil
  exact ⟨_, boot_of_imageWords h, rfl, rfl, rfl, inv_reset_withMem hwf, reg_reset, hread⟩

/-! ### Exit statuses -/

section ExitStatus

variable {s : State} {a : Word}

theorem exitStatus_of_running (h : s.status = .running) : s.exitStatus = none := by
  rw [State.exitStatus, h]

theorem exitStatus_of_aborted (h : s.status = .aborted a) : s.exitStatus = none := by
  rw [State.exitStatus, h]

theorem exitStatus_of_halted (h : s.status = .halted) : s.exitStatus = some 0 := by
  rw [State.exitStatus, h, Config.exitHalt]

theorem exitStatus_of_illegalOpcode {op : BitVec 4} (h : s.status = .faulted (.illegalOpcode op) a) :
    s.exitStatus = some s.params.exitIllegalOpcode := by
  rw [State.exitStatus, h]

theorem exitStatus_of_illegalTrap {v : BitVec 8} (h : s.status = .faulted (.illegalTrap v) a) :
    s.exitStatus = some s.params.exitIllegalTrap := by
  rw [State.exitStatus, h]

/-- What a run that has ended can tell the process (R225). -/
theorem exitStatus_cases {e : Nat} (h : s.exitStatus = some e) :
    (s.status = .halted ∧ e = 0) ∨ e = s.params.exitIllegalOpcode ∨ e = s.params.exitIllegalTrap := by
  cases hs : s.status with
  | running => rw [exitStatus_of_running hs] at h; cases h
  | aborted a => rw [exitStatus_of_aborted hs] at h; cases h
  | halted => exact .inl ⟨rfl, Option.some.inj (h.symm.trans (exitStatus_of_halted hs))⟩
  | faulted c a =>
    cases c with
    | illegalOpcode op => exact .inr (.inl (Option.some.inj (h.symm.trans (exitStatus_of_illegalOpcode hs))))
    | illegalTrap v => exact .inr (.inr (Option.some.inj (h.symm.trans (exitStatus_of_illegalTrap hs))))

end ExitStatus

/-- Settles O59: a status given is a halt's 0 or a fault's parameter, and usable parameters keep these apart (R6). -/
theorem exitStatusesTellTheEndings : Obligations.ExitStatusesTellTheEndings := by
  intro s hp
  obtain ⟨hload, hopcode, htrap, hloadOpcode, hloadTrap, hopcodeTrap⟩ := hp
  refine ⟨exitStatus_of_running, fun a => exitStatus_of_aborted, ⟨exitStatus_of_halted, fun h => ?_⟩,
    fun op a => exitStatus_of_illegalOpcode, fun v a => exitStatus_of_illegalTrap, rfl, fun t => rfl, hopcode, htrap, hload,
    fun e h heq => ?_, fun t ht op a v b hs hst heq => ?_⟩
  · obtain ⟨hs, -⟩ | h0 | h0 := exitStatus_cases h
    · exact hs
    · exact absurd h0.symm hopcode
    · exact absurd h0.symm htrap
  · have he : s.params.exitLoadFault = e := (Option.some.inj heq).symm
    obtain ⟨-, h0⟩ | hop | htr := exitStatus_cases h
    · exact hload (he.trans h0)
    · exact hloadOpcode (he.trans hop)
    · exact hloadTrap (he.trans htr)
  · rw [exitStatus_of_illegalOpcode hs, exitStatus_of_illegalTrap hst, ht] at heq
    exact hopcodeTrap (Option.some.inj heq)

end Sys2Proof.Machine

/-! PROOF. The reset state meets the invariant (70_reset_and_hazards.md R240). -/

namespace Sys2Proof.Machine

/-- Settles O45: the base case of O44. Reset's memory is the empty, canonical one. -/
theorem resetSatisfiesTheInvariant : Obligations.ResetSatisfiesTheInvariant :=
  inv_reset_withMem Memory.wf_nil

end Sys2Proof.Machine
